-- ==== Sys2Proof/Word.lean ====
section
/-! DEFINITION. The widths of 00_scope.md R5 as Lean types, and the record one `NODE` entry is (10_state.md R43). -/

namespace Sys2Proof

/-- A command word, a register or a table word: `CMD_W` = 32 bits (R5). -/
abbrev Word := BitVec 32

/-- A symbol, i.e. a byte of `TEXT` or of `BITSB`: `SYM_W` = 8 bits (R5, R99). -/
abbrev Byte := BitVec 8

/-- A host byte address: `HADDR_W` = 18 bits (R5). -/
abbrev Addr := BitVec 18

/-- A node weight: `WEIGHT_W` = 40 bits (R5, R140). -/
abbrev Weight := BitVec 40

/-- A node index: `IDX_W` = 9 bits, 0x1FF is "no node" (R5). -/
abbrev NodeIdx := BitVec 9

/-- A bit sequence, first bit first (R8, R102); a codeword is one (R100). -/
abbrev BitString := List Bool

/-- One entry of the node arena, field by field as R43 gives it. -/
structure Node where
  leaf   : Bool
  sym    : Byte
  weight : Weight
  left   : NodeIdx
  right  : NodeIdx
  deriving DecidableEq, Repr, Inhabited

end Sys2Proof
end

