-- ==== Sys2Proof/Config.lean ====
section
/-! DEFINITION. The parameters of 00_scope.md R5 and the free values: what 93_implementation_defined.md leaves open
(U1, U2, U3) is an opaque constant, so that no proof can see a value of it. -/

namespace Sys2Proof.Config

/-- `TEXT_CAP` (R5, R33): bytes of the TEXT buffer. -/
abbrev textCap : Nat := 65536

/-- `BIT_CAP` (R5, R34): bits of the BITS buffer. -/
abbrev bitCap : Nat := 524288

/-- `ALPHABET` (R5): number of symbols. -/
abbrev alphabet : Nat := 256

/-- `NODE_MAX` (R5): entries of the node arena. -/
abbrev nodeMax : Nat := 511

/-- `NONE` (R5, R43, R134): the node index that is no node. -/
abbrev noNode : NodeIdx := 0x1FF#9

/-- FREE VALUE (U1, R262): byte `i` of `TEXT` after the `r`-th reset, until it is written (log 4). -/
opaque unwrittenText : (r i : Nat) → Byte

/-- FREE VALUE (U1, R262): byte `b` of `BITSB` after the `r`-th reset, until it is written (log 4). -/
opaque unwrittenBits : (r b : Nat) → Byte

/-- FREE VALUE (U1, U3): entry `n` of `NODE` where the arena lists none (log 6). -/
opaque unspecifiedNode : (n : Nat) → Node

/-- FREE VALUE (U2): the data of the `k`-th host read that ended in `herr` (log 5). -/
opaque herrData : (k : Nat) → Word

end Sys2Proof.Config
end

