-- ==== Sys2Proof/Syntax.lean ====
section
/-! DEFINITION. The commands (one constructor per row of spec/opcode_table.json), the fields of a command word, the host
events and their outcomes, and the elements of the address map (30_encoding.md, 20_memory.md). -/

namespace Sys2Proof

/-- The six commands of R96. No command names a register or carries an immediate (R94); the only decoded values are the
flags `L` (lenient, R92) and `C` (check the total, R93) where the row has them. -/
inductive Instr where
  | fcnt                  -- R120
  | tbld (c : Bool)       -- R136
  | casn                  -- R150
  | benc                  -- R165
  | bdec (l c : Bool)     -- R180
  | clr                   -- R200
  deriving DecidableEq, Repr

/-- The fields of format C (R90): `OP` = w[3:0], `L` = w[4], `C` = w[5], `RSV` = w[31:6]. -/
structure CommandFields where
  op  : BitVec 4
  l   : Bool
  c   : Bool
  rsv : BitVec 26
  deriving DecidableEq, Repr

/-- Why a command word is illegal: the four causes of R97, in the rule's order. -/
inductive DecodeError where
  | reservedBits      -- w[31:6] is not 0
  | reservedOp        -- w[3:0] is 0 or in 7..15
  | lenientFlag       -- w[4] = 1 and w[3:0] is not 5
  | countFlag         -- w[5] = 1 and w[3:0] is neither 2 nor 5
  deriving DecidableEq, Repr

/-- The two access sizes of the host port (R60, R63, R64): `n` = 1 or 4 bytes. -/
inductive AccessSize where
  | byte | word
  deriving DecidableEq, Repr

/-- What the host does to the block: one transaction (R60, R63), or one pulse of the reset input between transactions (R260).
Byte data travels in bits 7:0 of `data`, bits 31:8 are ignored (R78). -/
inductive HostEvent where
  | read  (addr : Addr) (size : AccessSize)
  | write (addr : Addr) (size : AccessSize) (data : Word)
  | reset
  deriving DecidableEq, Repr

/-- How a host transaction ended (R11, R60, R65): a write ok, a read ok with its data, or `herr`; a read that ended in `herr`
carries the unspecified value it returned (U2). -/
inductive HostResponse where
  | wrote
  | data (v : Word)
  | herr (unspecified : Option Word)
  deriving DecidableEq, Repr

/-- Why a host transaction ends in `herr`: the four causes of R65, checked in this order. -/
inductive HostError where
  | unmapped | sizeOrAlignment | rights | lengthLimit
  deriving DecidableEq, Repr

/-- The elements of the address map (R61, R106). Index types make every index legal. -/
inductive Target where
  | cmd | status | errInfo | textLen | bitLen | symCount | nsym | textCap | bitCap
  | freq (s : Byte)
  | codeLen (s : Byte)
  | codeBits (s : Byte) (w : BitVec 3)
  | text (i : BitVec 16)
  | bitsb (b : BitVec 16)
  deriving DecidableEq, Repr

end Sys2Proof
end

