-- ==== Sys2Proof/WellFormed.lean ====
section
/-! DEFINITION. Well-formedness: the four conditions R97 puts on the fields of a command word, one named check each, and the
one R63 puts on the data of a byte transaction. -/

namespace Sys2Proof

/-- `RSV` must be 0 (R90, R97). -/
def CommandFields.rsvOk (f : CommandFields) : Bool := f.rsv == 0#26

/-- `OP` is one of 1..6; 0 and 7 to 15 are reserved (R91). -/
def CommandFields.opOk (f : CommandFields) : Bool := decide (1 ≤ f.op.toNat) && decide (f.op.toNat ≤ 6)

/-- `L` is legal only with `OP = 5` (R92). -/
def CommandFields.lOk (f : CommandFields) : Bool := !f.l || f.op == 5#4

/-- `C` is legal only with `OP = 2` and `OP = 5` (R93). -/
def CommandFields.cOk (f : CommandFields) : Bool := !f.c || f.op == 2#4 || f.op == 5#4

/-- The fields of a legal command word (R97: illegal when any condition fails). -/
def CommandFields.wellFormed (f : CommandFields) : Bool := f.rsvOk && f.opOk && f.lOk && f.cOk

/-- Every term of `Instr` is a legal command: its operands are implicit and its flags are where R92 and R93 allow them, so the
type itself is the check (R94). One arm per constructor, so that a new one is looked at. -/
def Instr.wellFormed : Instr → Bool
  | .fcnt     => true
  | .tbld _   => true
  | .casn     => true
  | .benc     => true
  | .bdec _ _ => true
  | .clr      => true

/-- A byte write carries a byte (R63: `v` an `n`-byte value). The port ignores bits 31:8 otherwise (R78). -/
def HostEvent.wellFormed : HostEvent → Bool
  | .read _ _       => true
  | .write _ .byte v => decide (v.toNat < 256)
  | .write _ .word _ => true
  | .reset          => true

end Sys2Proof
end

