-- ==== Sys2Proof/Decode.lean ====
section
/-! DEFINITION. The decoder of command words, total on all 2^32 words and rejecting by name (30_encoding.md R90 to R97), and
the encoder written from the same tables. -/

namespace Sys2Proof

/-- The field extraction of R90. -/
def fieldsOf (w : Word) : CommandFields :=
  { op := w.extractLsb' 0 4, l := w.getLsbD 4, c := w.getLsbD 5, rsv := w.extractLsb' 6 26 }

/-- The decoder (R91 to R97, R201): the ten legal words, every other word refused with the first of R97's causes that holds. -/
def decode (w : Word) : Except DecodeError Instr :=
  let f := fieldsOf w
  if f.rsv ≠ 0#26 then .error .reservedBits
  else match f.op.toNat, f.l, f.c with
    | 1, false, false => .ok .fcnt
    | 2, false, c     => .ok (.tbld c)
    | 3, false, false => .ok .casn
    | 4, false, false => .ok .benc
    | 5, l,     c     => .ok (.bdec l c)
    | 6, false, false => .ok .clr
    | n, l,     _     =>
      if n = 0 ∨ 6 < n then .error .reservedOp else if l then .error .lenientFlag else .error .countFlag

/-- The operation codes of R91. -/
def Instr.op : Instr → BitVec 4
  | .fcnt     => 1#4
  | .tbld _   => 2#4
  | .casn     => 3#4
  | .benc     => 4#4
  | .bdec _ _ => 5#4
  | .clr      => 6#4

/-- The flag `L` of a command (R92). -/
def Instr.flagL : Instr → Bool
  | .bdec l _ => l
  | .fcnt | .tbld _ | .casn | .benc | .clr => false

/-- The flag `C` of a command (R93). -/
def Instr.flagC : Instr → Bool
  | .tbld c   => c
  | .bdec _ c => c
  | .fcnt | .casn | .benc | .clr => false

/-- The fields of a command's word (R90). -/
def Instr.fields (i : Instr) : CommandFields := { op := i.op, l := i.flagL, c := i.flagC, rsv := 0#26 }

/-- The word with the given fields, most significant field first (R90). -/
def packFields (f : CommandFields) : Word := f.rsv ++ BitVec.ofBool f.c ++ BitVec.ofBool f.l ++ f.op

/-- The encoder: the command word of a command (R96). -/
def encode (i : Instr) : Word := packFields i.fields

/-- The command the decoder reads from a table word. A command is one 32-bit word (R90); there are no operand words, so a
number that needs more than 32 bits is no command word. -/
def decodeTableWord (nbits w : Nat) : Option Instr :=
  if nbits ≤ 32 ∧ w < 2 ^ 32 then (decode (BitVec.ofNat 32 w)).toOption else none

end Sys2Proof
end

