-- ==== Sys2Proof/Machine/State.lean ====
section
/-! DEFINITION. The state: the block's, component by component as 10_state.md R20 lists it, and the host agent's side of the
step. Plain data only. The reset values are those of 70_reset_and_hazards.md R261. -/

namespace Sys2Proof.Machine

/-- A buffer: byte index and byte, indices strictly rising (`Memory.wf`, Ops.lean). An index that is not listed has not been
written since reset (log 4). -/
abbrev Memory := List Host.Cell

/-- The complete state of the block (R20). `CMD`, `TEXTCAP` and `BITCAP` are addresses without storage; call-local working
state does not exist between commands (R45). -/
structure Block where
  /-- R21 -/
  textLen   : Word
  /-- R22 -/
  bitLen    : Word
  /-- R23 -/
  symCount  : Word
  /-- STATUS.TREE_VALID, R27 -/
  treeValid : Bool
  /-- STATUS.CODE_VALID, R28 -/
  codeValid : Bool
  /-- STATUS.EMPTY, R29 -/
  empty     : Bool
  /-- STATUS.ERR, R30 -/
  err       : BitVec 8
  /-- ERRINFO, R31 -/
  errInfo   : Word
  /-- NSYM, R32 -/
  nsym      : BitVec 9
  /-- FREQ[0..255], R35 -/
  freq      : Vector Word 256
  /-- CODE[0..255], R37: entry `s` is its CW; LEN is the length of CW, unset is the empty sequence (log 8) -/
  code      : Vector BitString 256
  /-- TEXT, R39 -/
  text      : Memory
  /-- BITS as the bytes BITSB, R40 -/
  bits      : Memory
  /-- NODE, R42, R43: the entries with a meaning, from index 0; the rest is unspecified (log 6) -/
  node      : List Node
  deriving DecidableEq, Repr

/-- The machine's state: the block, and the host agent's side of a step (the model's own fields, log 1, 3, 4, 5). -/
structure State extends Block where
  /-- the host events not yet performed: the rest of the host script (R105), oldest first -/
  pending  : List HostEvent
  /-- the outcome of the most recent host transaction -/
  response : Option HostResponse
  /-- how many resets there have been: selects the free values of the unwritten bytes -/
  resets   : Nat
  /-- how many free values reads ending in `herr` have returned -/
  draws    : Nat
  deriving DecidableEq, Repr

/-- Stops with a fault: none. The spec has no stuck case (R14, R254, 93_implementation_defined.md part 1), so nothing raises a
fault and the type has no constructor; safe and unsafe do not arise. -/
inductive Fault where
  deriving DecidableEq, Repr

/-- Refusals. -/
inductive Refusal where
  /-- Raised only by an arm of `exec` for a command not modelled yet; no arm is. Safe: it stops where the block goes on. -/
  | notModelled (mnemonic : String)
  deriving DecidableEq, Repr

/-- The failures of R235 with a code of their own. A failure is an ordinary next state (R254). -/
inductive Failure where
  | unknownSymbol | malformedBitStream | invalidFrequencyTable | sequenceError | capacityExceeded | illegalCommand
  deriving DecidableEq, Repr

/-- A failure with its information value: the operand of `raise <Failure>(info)` (R9, R244). -/
structure Raise where
  failure : Failure
  info    : Word
  deriving DecidableEq, Repr

/-- The block after reset (R261). TEXT, BITSB and NODE are unspecified: nothing is listed. -/
def Block.reset : Block :=
  { textLen := 0#32, bitLen := 0#32, symCount := 0#32
    treeValid := false, codeValid := false, empty := false, err := 0#8, errInfo := 0#32, nsym := 0#9
    freq := Vector.replicate 256 0#32, code := Vector.replicate 256 []
    text := [], bits := [], node := [] }

/-- The machine right after reset: the block in its reset state and idle, with no host event pending (R260, log 1, log 2). -/
def State.reset : State :=
  { toBlock := Block.reset, pending := [], response := none, resets := 0, draws := 0 }

end Sys2Proof.Machine
end

