-- ==== Sys2Proof/Machine/Ops.lean ====
section
/-! DEFINITION. The named operations: 256-entry tables, the byte buffers with the primitives of 20_memory.md R68, the node arena,
and the two ways a command ends, success and `raise` (60_exceptions.md R244). -/

namespace Sys2Proof.Machine

/-! ## Tables of 256 entries, indexed by symbol (R35, R37) -/

/-- Entry `s` of a table. -/
def tableGet {α : Type} (v : Vector α 256) (s : Byte) : α := v[s.toNat]'(s.isLt)

/-- The table with entry `s` replaced. -/
def tableSet {α : Type} (v : Vector α 256) (s : Byte) (x : α) : Vector α 256 := v.set s.toNat x s.isLt

/-- The table of the images of all entries. -/
def tableMap {α β : Type} (f : α → β) (v : Vector α 256) : Vector β 256 :=
  ⟨(v.toList.map f).toArray, by simp⟩

/-! ## Bytes as eight bits, first bit most significant (R66) -/

/-- The number whose binary numeral is `bs`, first bit most significant. -/
def bitsToNat (bs : BitString) : Nat := bs.foldl (fun n b => 2 * n + b.toNat) 0

/-- The byte with the eight bits `bs`, the first one at bit 7 (R66). -/
def packByte (bs : BitString) : Byte := BitVec.ofNat 8 (bitsToNat bs)

/-- The eight bits of a byte, bit 7 first (R63: `v[7-t]` for t = 0..7). -/
def unpackByte (v : Byte) : BitString := (List.range 8).map v.getMsbD

/-- The byte whose leading bits are `bs` (at most eight) and whose other bits are those of `old`. -/
def overlayByte (bs : BitString) (old : Byte) : Byte := packByte (bs ++ (unpackByte old).drop bs.length)

/-! ## Buffers -/

/-- What an index that is not listed holds: no byte yet. It reads as a free value (`Memory.byteAt`, log 4), and no write ever
writes "no byte", so no listed entry equals it. -/
def Memory.unlisted : Option Byte := none

/-- The byte listed at index `a`. -/
def Memory.lookup : Memory → Nat → Option Byte
  | [], _ => Memory.unlisted
  | (k, b) :: m, a => if k = a then some b else Memory.lookup m a

/-- A store, keeping the indices strictly rising. -/
def Memory.write : Memory → Nat → Byte → Memory
  | [], a, v => [(a, v)]
  | (k, b) :: m, a, v =>
    if a < k then (a, v) :: (k, b) :: m
    else if a = k then (a, v) :: m
    else (k, b) :: Memory.write m a v

/-- The canonical form: indices strictly rising. -/
def Memory.wf : Memory → Bool
  | [] => true
  | c :: m => m.all (fun d => decide (c.1 < d.1)) && Memory.wf m

/-- Byte `a` of a buffer whose unwritten bytes are `free` (R60, R262). -/
def Memory.byteAt (free : Nat → Byte) (m : Memory) (a : Nat) : Byte := (m.lookup a).getD (free a)

/-- Bit `j` of the BITS buffer: bit `7 - (j mod 8)` of byte `floor(j/8)` (R66). -/
def Memory.bitAt (free : Nat → Byte) (m : Memory) (j : Nat) : Bool := (m.byteAt free (j / 8)).getMsbD (j % 8)

/-- `BitWrite(j, b)` (R68): changes bit `7 - (j mod 8)` of byte `floor(j/8)`, keeps the other seven. -/
def Memory.bitWrite (free : Nat → Byte) (m : Memory) (j : Nat) (b : Bool) : Memory :=
  m.write (j / 8) (packByte ((unpackByte (m.byteAt free (j / 8))).set (j % 8) b))

/-- The `BitWrite`s of the bits `bs` to positions 0, 1, ..., done byte by byte, so that a byte that is written in full is not
read first (log 9). -/
def Memory.putBits (free : Nat → Byte) (m : Memory) (bs : BitString) : Memory :=
  (List.range ((bs.length + 7) / 8)).foldl
    (fun m k => m.write k (overlayByte ((bs.drop (8 * k)).take 8) (m.byteAt free k))) m

/-- The `TextWrite`s (R68) of the bytes `bs` to positions `a`, `a + 1`, .... -/
def Memory.putBytes : Memory → Nat → List Byte → Memory
  | m, _, [] => m
  | m, a, b :: bs => Memory.putBytes (m.write a b) (a + 1) bs

/-! ## The state's buffers and arena -/

/-- `TextRead(i)`, `TEXT[i]` (R39, R68). -/
def State.textAt (s : State) (i : Nat) : Byte := s.text.byteAt (Config.unwrittenText s.resets) i

/-- `BITSB[b]` (R40). -/
def State.bitsbAt (s : State) (b : Nat) : Byte := s.bits.byteAt (Config.unwrittenBits s.resets) b

/-- `BitRead(j)`, `BITS{j}` (R66, R68). -/
def State.bitAt (s : State) (j : Nat) : Bool := s.bits.bitAt (Config.unwrittenBits s.resets) j

/-- `NODE[n]` of an arena; an entry that is not listed is unspecified (U3, log 6). -/
def nodeAt (nodes : List Node) (n : Nat) : Node := nodes[n]?.getD (Config.unspecifiedNode n)

/-! ## How a command ends (R11, R244, R246) -/

/-- The codes of R235. -/
def Failure.code : Failure → BitVec 8
  | .unknownSymbol         => 1#8
  | .malformedBitStream    => 2#8
  | .invalidFrequencyTable => 3#8
  | .sequenceError         => 4#8
  | .capacityExceeded      => 5#8
  | .illegalCommand        => 6#8

/-- Failure entry, `raise <Failure>(info)` (R244): STATUS.ERR, ERRINFO and STATUS.EMPTY are written, nothing is saved, no mode
changes and control goes nowhere; what the command wrote before stays written. -/
def State.raise (s : State) (r : Raise) : State :=
  { s with err := r.failure.code, errInfo := r.info, empty := false }

/-- The successful end of a command (R11, R29, R30, R31). It is also all the return from a failure there is (R246): there is no
return instruction, and the next command overwrites the outcome of the one before. -/
def State.succeed (s : State) (emptyInput : Bool) : State :=
  { s with err := 0#8, errInfo := 0#32, empty := emptyInput }

/-- The outcome of the transaction as the host sees it (R11). -/
def State.respond (s : State) (r : HostResponse) : State := { s with response := some r }

end Sys2Proof.Machine
end

