-- ==== Sys2Proof/Machine/Operands.lean ====
section
/-! DEFINITION. The implicit operands of the commands (30_encoding.md R94, R95; 10_state.md R41): every operand form there is. -/

namespace Sys2Proof.Machine

/-- The source text `TEXT[0 .. TEXT_LEN-1]` (R21, R95), operand of `FCNT` and `BENC`. -/
def State.textOperand (s : State) : List Byte := (List.range s.textLen.toNat).map s.textAt

/-- The bit string `BITS{0 .. BIT_LEN-1}` (R22, R95, R102), operand of `BDEC`. -/
def State.bitsOperand (s : State) : BitString := (List.range s.bitLen.toNat).map s.bitAt

/-- The total of a frequency table as a mathematical sum (R130, R140). -/
def freqTotal (F : Vector Word 256) : Nat := (F.toList.map BitVec.toNat).sum

/-- The number of symbols with a nonzero entry: `K` (00_scope.md glossary, R32). -/
def freqSymbols (F : Vector Word 256) : Nat := F.toList.countP (fun v => v ≠ 0#32)

/-- `CODE[s].LEN` as the 8-bit field it is (R37, log 8). -/
def codeLenField (code : Vector BitString 256) (s : Byte) : BitVec 8 := BitVec.ofNat 8 (tableGet code s).length

/-- `CODEBITS[s][w]` (R101): bit `t` of the codeword is bit `31 - (t mod 32)` of word `floor(t/32)`; positions at or beyond LEN
read 0. -/
def codeBitsWord (code : Vector BitString 256) (s : Byte) (w : Nat) : Word :=
  let chunk := ((tableGet code s).drop (32 * w)).take 32
  BitVec.ofNat 32 (bitsToNat (chunk ++ List.replicate (32 - chunk.length) false))

end Sys2Proof.Machine
end

