-- ==== Sys2Proof/Machine/Flags.lean ====
section
/-! DEFINITION. The STATUS register and its flags (10_state.md R26 to R30), and the EmptyInput condition of each command (R29). -/

namespace Sys2Proof.Machine

/-- The STATUS word (R26): ERR in 15:8, EMPTY in 2, CODE_VALID in 1, TREE_VALID in 0, reserved bits 0. -/
def Block.statusWord (b : Block) : Word :=
  0#16 ++ b.err ++ 0#5 ++ BitVec.ofBool b.empty ++ BitVec.ofBool b.codeValid ++ BitVec.ofBool b.treeValid

/-- The NSYM register: K in bits 8:0, bits 31:9 read 0 (R32). -/
def Block.nsymWord (b : Block) : Word := 0#23 ++ b.nsym

/-- EmptyInput of `FCNT` and `BENC`: `TEXT_LEN = 0` (R29). -/
def emptyText (s : State) : Bool := s.textLen == 0#32

/-- EmptyInput of `TBLD`, `CASN` and `BDEC`: no symbol, K = 0 (R29). -/
def emptyTree (K : Nat) : Bool := K == 0

/-- A change of the table: both valid flags are cleared (R27, R28, R36). -/
def State.invalidate (s : State) : State := { s with treeValid := false, codeValid := false }

end Sys2Proof.Machine
end

