-- ==== Sys2Proof/Machine/TreeBuilder.lean ====
section
/-! DEFINITION. huffman_tree_builder: `validFreq`, `buildTree`, `root` and the command `TBLD` (41_tree_builder.md). -/

namespace Sys2Proof.Machine

/-- `validFreq(F, c, N)` (R130): the lowest symbol whose entry has bit 31 set, then, under flag `C`, the total against
`SYM_COUNT` as mathematical integers; `none` is ok. -/
def validFreq (F : Vector Word 256) (c : Bool) (N : Word) : Option Raise :=
  match F.toList.findIdx? (·.msb) with
  | some s => some ⟨.invalidFrequencyTable, BitVec.ofNat 32 s⟩
  | none => if c && freqTotal F != N.toNat then some ⟨.invalidFrequencyTable, 0x100#32⟩ else none

/-- A leaf (R43, R131). -/
def leafNode (s : Nat) (v : Word) : Node :=
  { leaf := true, sym := BitVec.ofNat 8 s, weight := v.setWidth 40, left := Config.noNode, right := Config.noNode }

/-- An internal node (R43, R133). -/
def internalNode (weight : Weight) (a b : Nat) : Node :=
  { leaf := false, sym := 0#8, weight := weight, left := BitVec.ofNat 9 a, right := BitVec.ofNat 9 b }

/-- Step 1 (R131): one leaf per symbol with a nonzero entry, in ascending order of symbol. -/
def leaves (F : Vector Word 256) : List Node :=
  F.toList.zipIdx.filterMap (fun (v, s) => if v = 0#32 then none else some (leafNode s v))

/-- A node index still to be merged, with its weight: an element of `ACTIVE` (R131, R132). -/
structure QueueEntry where
  weight : Weight
  idx    : Nat
  deriving DecidableEq, Repr

/-- The priority order (R132): by weight, then by node index. -/
def before (x y : QueueEntry) : Bool := decide (x.weight < y.weight) || (x.weight == y.weight && decide (x.idx < y.idx))

/-- `ACTIVE + { e }`, the set kept as a list in the order of R132, so that `extractMin` takes the head (log 9). -/
def enqueue (e : QueueEntry) : List QueueEntry → List QueueEntry
  | [] => [e]
  | x :: q => if before e x then e :: x :: q else x :: enqueue e q

/-- `ACTIVE` before the first merge: all leaves (R131). -/
def leafQueue (nodes : List Node) : List QueueEntry :=
  nodes.zipIdx.foldl (fun q (n, i) => enqueue ⟨n.weight, i⟩ q) []

/-- Step 2, the merge loop (R133): while more than one node remains, the first node removed becomes LEFT, the second RIGHT, and
the new node, whose index is the next free one, is inserted. The fuel bounds the number of merges. -/
def mergeLoop : Nat → List Node → List QueueEntry → List Node
  | fuel + 1, nodes, a :: b :: q =>
    let w := a.weight + b.weight
    mergeLoop fuel (nodes ++ [internalNode w a.idx b.idx]) (enqueue ⟨w, nodes.length⟩ q)
  | _, nodes, _ => nodes

/-- `buildTree(F)` (R135): the entries `NODE[0 .. 2K-2]` and K. -/
def buildTree (F : Vector Word 256) : List Node × Nat :=
  let ls := leaves F
  (mergeLoop ls.length ls (leafQueue ls), ls.length)

/-- Step 3 (R134): the index of the root, a function of K alone. -/
def root (K : Nat) : Nat := if K = 0 then Config.noNode.toNat else 2 * K - 2

/-- `TBLD` (R136). On a failure of validation NODE and NSYM are untouched and TREE_VALID is 0. -/
def tbld (c : Bool) (s : State) : State :=
  let s := { s with treeValid := false, empty := false }
  match validFreq s.freq c s.symCount with
  | some r => s.raise r
  | none =>
    let t := buildTree s.freq
    { s with node := t.1, nsym := BitVec.ofNat 9 t.2, treeValid := true }.succeed (emptyTree t.2)

/-- The meaning of `TBLD`. -/
def execTbld (c : Bool) (s : State) : Host.Outcome State Fault Refusal := .next (tbld c s)

end Sys2Proof.Machine
end

