-- ==== Sys2Proof/Machine/BitstreamDecoder.lean ====
section
/-! DEFINITION. huffman_bitstream_decoder: `decodeBits` and the command `BDEC` (44_bitstream_decoder.md). -/

namespace Sys2Proof.Machine

/-- Case K = 1 (R184), from bit index `j`, which is also the number of symbols emitted: each 0 emits the one symbol, a 1 is
malformed in either mode. The symbols emitted and the failure that ends the walk. -/
def decodeSingle (u : Byte) : Nat → BitString → List Byte × Option Raise
  | _, [] => ([], none)
  | j, b :: B =>
    if b then ([], some ⟨.malformedBitStream, BitVec.ofNat 32 j⟩)
    else if j = Config.textCap then ([], some ⟨.capacityExceeded, BitVec.ofNat 32 j⟩)
    else
      let r := decodeSingle u (j + 1) B
      (u :: r.1, r.2)

/-- Case K >= 2, the tree walk (R183, R185): at bit index `j`, with `m` symbols emitted, the walk at `cur` and the codeword
being walked begun at bit `start`. -/
def decodeWalk (nodes : List Node) (top : Nat) (lenient : Bool) :
    (j m start cur : Nat) → BitString → List Byte × Option Raise
  | _, _, start, cur, [] =>
    if cur ≠ top ∧ lenient = false then ([], some ⟨.malformedBitStream, BitVec.ofNat 32 start⟩) else ([], none)
  | j, m, start, cur, b :: B =>
    let x := nodeAt nodes cur
    let next := if b then x.right.toNat else x.left.toNat
    if (nodeAt nodes next).leaf then
      if m = Config.textCap then ([], some ⟨.capacityExceeded, BitVec.ofNat 32 j⟩)
      else
        let r := decodeWalk nodes top lenient (j + 1) (m + 1) (j + 1) top B
        ((nodeAt nodes next).sym :: r.1, r.2)
    else decodeWalk nodes top lenient (j + 1) m start next B

/-- `decodeBits(B, nodes, K, l)`: the symbols emitted and the failure, by K (R182, R183, R184). -/
def decodeBits (B : BitString) (nodes : List Node) (K : Nat) (l : Bool) : List Byte × Option Raise :=
  if K = 0 then ([], if B.isEmpty || l then none else some ⟨.malformedBitStream, 0#32⟩)
  else if K = 1 then decodeSingle (nodeAt nodes 0).sym 0 B
  else decodeWalk nodes (root K) l 0 0 0 (root K) B

/-- `BDEC` (R180): validates and rebuilds the tree for itself (R181), decodes, discards the tree. On a failure TEXT_LEN is 0 and
the symbols emitted before it are in TEXT (R188). -/
def bdec (l c : Bool) (s : State) : State :=
  let s := { s with treeValid := false, empty := false, textLen := 0#32 }
  match validFreq s.freq c s.symCount with
  | some r => s.raise r
  | none =>
    let t := buildTree s.freq
    let d := decodeBits s.bitsOperand t.1 t.2 l
    let s := { s with node := t.1, nsym := BitVec.ofNat 9 t.2, text := s.text.putBytes 0 d.1 }
    match d.2 with
    | some r => s.raise r
    | none => { s with textLen := BitVec.ofNat 32 d.1.length }.succeed (emptyTree t.2)

/-- The meaning of `BDEC`. -/
def execBdec (l c : Bool) (s : State) : Host.Outcome State Fault Refusal := .next (bdec l c s)

end Sys2Proof.Machine
end

