-- ==== Sys2Proof/Machine/BitstreamEncoder.lean ====
section
/-! DEFINITION. huffman_bitstream_encoder: `encodeBits` and the command `BENC` (43_bitstream_encoder.md). -/

namespace Sys2Proof.Machine

/-- `encodeBits(T, code)` (R166), on an unbounded output: the concatenation of the codewords, or the index of the first byte
without one. -/
def encodeBits (code : Vector BitString 256) : List Byte → Except Nat BitString
  | [] => .ok []
  | b :: T =>
    if (tableGet code b).isEmpty then .error 0
    else match encodeBits code T with
      | .ok out => .ok (tableGet code b ++ out)
      | .error i => .error (i + 1)

/-- The loop of `BENC` (R165) from byte index `i` with `n` bits written: the bits it writes from position `n` on, and the
failure that ends it, UnknownSymbol before CapacityExceeded for each byte. -/
def encodeLoop (code : Vector BitString 256) : Nat → Nat → List Byte → BitString × Option Raise
  | _, _, [] => ([], none)
  | i, n, b :: T =>
    let cw := tableGet code b
    if cw.isEmpty then ([], some ⟨.unknownSymbol, BitVec.ofNat 32 i⟩)
    else if Config.bitCap < n + cw.length then ([], some ⟨.capacityExceeded, BitVec.ofNat 32 i⟩)
    else
      let r := encodeLoop code (i + 1) (n + cw.length) T
      (cw ++ r.1, r.2)

/-- The zero bits that fill the last, partial byte (R69). -/
def padding (n : Nat) : BitString := List.replicate ((8 - n % 8) % 8) false

/-- `BENC` (R165). On a failure BIT_LEN is 0, the codewords before the failing byte are written and no padding is (R169). -/
def benc (s : State) : State :=
  let s := { s with bitLen := 0#32, empty := false }
  if emptyText s then s.succeed true
  else if s.codeValid then
    let r := encodeLoop s.code 0 0 s.textOperand
    let free := Config.unwrittenBits s.resets
    match r.2 with
    | some f => { s with bits := s.bits.putBits free r.1 }.raise f
    | none =>
      { s with bits := s.bits.putBits free (r.1 ++ padding r.1.length)
               bitLen := BitVec.ofNat 32 r.1.length }.succeed false
  else s.raise ⟨.sequenceError, 0#32⟩

/-- The meaning of `BENC`. -/
def execBenc (s : State) : Host.Outcome State Fault Refusal := .next (benc s)

end Sys2Proof.Machine
end

