-- ==== Sys2Proof/Machine/CodeAssigner.lean ====
section
/-! DEFINITION. huffman_code_assigner: `assignCodes` and the command `CASN` (42_code_assigner.md). -/

namespace Sys2Proof.Machine

/-- Every entry unset (R37). -/
def unsetCodes : Vector BitString 256 := Vector.replicate 256 []

/-- The explicit-stack traversal (R152) over (node index, path so far): a leaf records its path, an internal node pushes its
right child and then its left. The fuel bounds the number of nodes visited. -/
def traverse (nodes : List Node) : Nat → List (Nat × BitString) → Vector BitString 256 → Vector BitString 256
  | fuel + 1, (n, p) :: stack, M =>
    let x := nodeAt nodes n
    if x.leaf then traverse nodes fuel stack (tableSet M x.sym p)
    else traverse nodes fuel ((x.left.toNat, p ++ [false]) :: (x.right.toNat, p ++ [true]) :: stack) M
  | _, _, M => M

/-- `assignCodes(nodes, K)`: no entry for K = 0, `"0"` for the one symbol of K = 1 (R153), else the traversal, which visits
`2K - 1` nodes (R152). -/
def assignCodes (nodes : List Node) (K : Nat) : Vector BitString 256 :=
  if K = 0 then unsetCodes
  else if K = 1 then tableSet unsetCodes (nodeAt nodes 0).sym [false]
  else traverse nodes (2 * K - 1) [(root K, [])] unsetCodes

/-- `CASN` (R150): needs a valid tree, writes all 256 entries, discards the tree. TREE_VALID is 0 afterwards in both cases. -/
def casn (s : State) : State :=
  let s := { s with codeValid := false, empty := false }
  if s.treeValid then
    let K := s.nsym.toNat
    { s with code := assignCodes s.node K, codeValid := true, treeValid := false }.succeed (emptyTree K)
  else s.raise ⟨.sequenceError, 0#32⟩

/-- The meaning of `CASN`. -/
def execCasn (s : State) : Host.Outcome State Fault Refusal := .next (casn s)

end Sys2Proof.Machine
end

