-- ==== Sys2Proof/Machine/Control.lean ====
section
/-! DEFINITION. The command `CLR` (45_control_and_facade.md R200) and the outcome of an illegal command word (R201, R241). -/

namespace Sys2Proof.Machine

/-- `CLR` (R200): every register and table to its reset value; TEXT, BITS and NODE keep their contents. -/
def clr (s : State) : State :=
  { s with
    textLen := 0#32, bitLen := 0#32, symCount := 0#32, nsym := 0#9
    freq := Vector.replicate 256 0#32, code := Vector.replicate 256 []
    treeValid := false, codeValid := false, empty := false
    err := 0#8, errInfo := 0#32 }

/-- The meaning of `CLR`. -/
def execClr (s : State) : Host.Outcome State Fault Refusal := .next (clr s)

/-- An illegal command word `w` (R97, R201, R241): IllegalCommand with ERRINFO = `w`, nothing else changes. -/
def illegalWord (w : Word) (s : State) : State := s.raise ⟨.illegalCommand, w⟩

end Sys2Proof.Machine
end

