-- ==== Sys2Proof/Machine/FrequencyCounter.lean ====
section
/-! DEFINITION. frequency_table_counter: `countFreq` and the command `FCNT` (40_frequency_counter.md). -/

namespace Sys2Proof.Machine

/-- `countFreq(T)` (R121): all counts zero, then one increment per occurrence. -/
def countFreq (T : List Byte) : Vector Nat 256 :=
  T.foldl (fun F b => tableSet F b (tableGet F b + 1)) (Vector.replicate 256 0)

/-- `FCNT` (R120): `FREQ[s] <- zext_32(F[s])` for all 256 entries; both valid flags cleared; never fails. -/
def fcnt (s : State) : State :=
  ({ s with freq := tableMap (BitVec.ofNat 32) (countFreq s.textOperand) }.invalidate).succeed (emptyText s)

/-- The meaning of `FCNT`. -/
def execFcnt (s : State) : Host.Outcome State Fault Refusal := .next (fcnt s)

end Sys2Proof.Machine
end

