-- ==== Sys2Proof/Machine/Dispatch.lean ====
section
/-! DEFINITION. One arm per command (45_control_and_facade.md R201). -/

namespace Sys2Proof.Machine

def exec (i : Instr) (s : State) : Host.Outcome State Fault Refusal :=
  match i with
  | .fcnt => Sys2Proof.Machine.execFcnt s
  | .tbld c => Sys2Proof.Machine.execTbld c s
  | .casn => Sys2Proof.Machine.execCasn s
  | .benc => Sys2Proof.Machine.execBenc s
  | .bdec l c => Sys2Proof.Machine.execBdec l c s
  | .clr => Sys2Proof.Machine.execClr s

end Sys2Proof.Machine
end

