-- ==== Sys2Proof/Machine/Port.lean ====
section
/-! DEFINITION. The host port: the address map with its access sizes and rights, the checks that end a transaction in `herr`, the
value of a read and the plain stores (20_memory.md R60 to R65), and the wire-level port (R78). -/

namespace Sys2Proof.Machine

/-- The registers at 0x00000 to 0x00020, by word index (R61). -/
def registerAt : Nat → Option Target
  | 0 => some .cmd
  | 1 => some .status
  | 2 => some .errInfo
  | 3 => some .textLen
  | 4 => some .bitLen
  | 5 => some .symCount
  | 6 => some .nsym
  | 7 => some .textCap
  | 8 => some .bitCap
  | _ => none

/-- The element whose unit holds byte address `addr`; `none` is unmapped (R61, R62). -/
def targetAt (addr : Addr) : Option Target :=
  let a := addr.toNat
  if a < 0x00400 then registerAt (a / 4)
  else if a < 0x00800 then some (.freq (BitVec.ofNat 8 ((a - 0x00400) / 4)))
  else if a < 0x00C00 then some (.codeLen (BitVec.ofNat 8 ((a - 0x00800) / 4)))
  else if a < 0x02000 then none
  else if a < 0x04000 then some (.codeBits (BitVec.ofNat 8 ((a - 0x02000) / 32)) (BitVec.ofNat 3 ((a - 0x02000) / 4)))
  else if a < 0x10000 then none
  else if a < 0x20000 then some (.text (BitVec.ofNat 16 (a - 0x10000)))
  else if a < 0x30000 then some (.bitsb (BitVec.ofNat 16 (a - 0x20000)))
  else none

/-- The one access size of an element (R61, R64). -/
def accessSizeOf : Target → AccessSize
  | .text _ | .bitsb _ => .byte
  | .cmd | .status | .errInfo | .textLen | .bitLen | .symCount | .nsym | .textCap | .bitCap => .word
  | .freq _ | .codeLen _ | .codeBits _ _ => .word

/-- Whether the host may read an element: all but `CMD` (R25, R61). -/
def readable : Target → Bool
  | .cmd => false
  | .status | .errInfo | .textLen | .bitLen | .symCount | .nsym | .textCap | .bitCap => true
  | .freq _ | .codeLen _ | .codeBits _ _ | .text _ | .bitsb _ => true

/-- Whether the host may write an element (R61, R65 (3)). -/
def writable : Target → Bool
  | .cmd | .textLen | .bitLen | .symCount => true
  | .freq _ | .text _ | .bitsb _ => true
  | .status | .errInfo | .nsym | .textCap | .bitCap => false
  | .codeLen _ | .codeBits _ _ => false

/-- The element an access reaches, or the first of the causes (1) and (2) of R65. -/
def accessTarget (addr : Addr) (size : AccessSize) : Except HostError Target :=
  match targetAt addr with
  | none => .error .unmapped
  | some t =>
    if size ≠ accessSizeOf t ∨ (size = .word ∧ addr.toNat % 4 ≠ 0) then .error .sizeOrAlignment else .ok t

/-- The legal values of a host write: at most `TEXT_CAP` for `TEXT_LEN`, at most `BIT_CAP` for `BIT_LEN` (R65 (4)). -/
def withinLimit (t : Target) (v : Word) : Bool :=
  match t with
  | .textLen => decide (v.toNat ≤ Config.textCap)
  | .bitLen  => decide (v.toNat ≤ Config.bitCap)
  | .cmd | .status | .errInfo | .symCount | .nsym | .textCap | .bitCap => true
  | .freq _ | .codeLen _ | .codeBits _ _ | .text _ | .bitsb _ => true

/-- The element a read returns, or the first cause of R65 that holds. -/
def readTarget (addr : Addr) (size : AccessSize) : Except HostError Target :=
  match accessTarget addr size with
  | .error e => .error e
  | .ok t => if readable t then .ok t else .error .rights

/-- The element a write reaches, or the first cause of R65 that holds. -/
def writeTarget (addr : Addr) (size : AccessSize) (v : Word) : Except HostError Target :=
  match accessTarget addr size with
  | .error e => .error e
  | .ok t =>
    if writable t then (if withinLimit t v then .ok t else .error .lengthLimit) else .error .rights

/-- The value of a read that ends ok (R60); a byte in bits 7:0 (R78). `CMD` cannot be read (R25): it has no storage, and no
read reaches this arm. -/
def readValue (s : State) : Target → Word
  | .cmd          => 0#32
  | .status       => s.statusWord
  | .errInfo      => s.errInfo
  | .textLen      => s.textLen
  | .bitLen       => s.bitLen
  | .symCount     => s.symCount
  | .nsym         => s.nsymWord
  | .textCap      => BitVec.ofNat 32 Config.textCap
  | .bitCap       => BitVec.ofNat 32 Config.bitCap
  | .freq x       => tableGet s.freq x
  | .codeLen x    => (codeLenField s.code x).setWidth 32
  | .codeBits x w => codeBitsWord s.code x w.toNat
  | .text i       => (s.textAt i.toNat).setWidth 32
  | .bitsb b      => (s.bitsbAt b.toNat).setWidth 32

/-- The effect of a write that ends ok on an element other than `CMD` (R63). The read-only elements and `CMD` have no store
here: no write reaches those arms. -/
def storeTarget (s : State) (v : Word) : Target → State
  | .textLen  => { s with textLen := v }
  | .bitLen   => { s with bitLen := v }
  | .symCount => { s with symCount := v }
  | .freq x   => { s with freq := tableSet s.freq x v }.invalidate
  | .text i   => { s with text := s.text.write i.toNat (v.setWidth 8) }
  | .bitsb b  => { s with bits := s.bits.write b.toNat (v.setWidth 8) }
  | .cmd | .status | .errInfo | .nsym | .textCap | .bitCap => s
  | .codeLen _ | .codeBits _ _ => s

/-- The host's view of a transaction as request wires (R78). -/
structure WireRequest where
  hWrite : Bool
  hSize  : Bool
  hAddr  : Addr
  hWdata : Word
  deriving DecidableEq, Repr

/-- The transaction a request presents (R78): `h_size` 0 is one byte, 1 is four; `h_wdata` bits 31:8 of a byte are ignored. -/
def WireRequest.toEvent (q : WireRequest) : HostEvent :=
  let size : AccessSize := if q.hSize then .word else .byte
  if q.hWrite then
    .write q.hAddr size (if q.hSize then q.hWdata else (q.hWdata.setWidth 8).setWidth 32)
  else .read q.hAddr size

/-- `h_err` of a response (R78). -/
def hErrOf : HostResponse → Bool
  | .herr _ => true
  | .wrote | .data _ => false

/-- `h_rdata` of a response; `none` where R78 gives the wire no value (U6). -/
def hRdataOf : HostResponse → Option Word
  | .data v => some v
  | .herr d => d
  | .wrote  => none

end Sys2Proof.Machine
end

