-- ==== Sys2Proof/Machine/Transaction.lean ====
section
/-! DEFINITION. One host event as one step: a read, a write with the command it may start, or a reset (00_scope.md R6;
20_memory.md R60, R63, R65; 45_control_and_facade.md R201; 70_reset_and_hazards.md R260). -/

namespace Sys2Proof.Machine

/-- The dispatch of a word written to `CMD` (R201). -/
def issueCommand (w : Word) (s : State) : Host.Outcome State Fault Refusal :=
  match decode w with
  | .ok i => exec i s
  | .error _ => .next (illegalWord w s)

/-- A transaction's answer after what it did. A stop passes through. -/
def respondTo (o : Host.Outcome State Fault Refusal) (r : HostResponse) : Host.Outcome State Fault Refusal :=
  match o with
  | .next s => .next (s.respond r)
  | .fault f => .fault f
  | .refused f => .refused f

/-- `HostRead(addr, n)` (R60): no state of the block changes (R71); a read that ends in `herr` returns an unspecified value
(U2, log 5). -/
def hostRead (addr : Addr) (size : AccessSize) (s : State) : State :=
  match readTarget addr size with
  | .ok t => s.respond (.data (readValue s t))
  | .error _ => { s with draws := s.draws + 1 }.respond (.herr (some (Config.herrData s.draws)))

/-- `HostWrite(addr, n, v)` (R63): a write to `CMD` executes the command to completion and ends ok whatever its outcome (R11); a
write that ends in `herr` changes nothing (R65). -/
def hostWrite (addr : Addr) (size : AccessSize) (v : Word) (s : State) : Host.Outcome State Fault Refusal :=
  match writeTarget addr size v with
  | .ok .cmd => respondTo (issueCommand v s) .wrote
  | .ok t => .next ((storeTarget s v t).respond .wrote)
  | .error _ => .next (s.respond (.herr none))

/-- A pulse of `rst_n` (R260, R261, R264): the block is in its reset state; the unspecified bytes are new free values (log 4,
log 7). The host's script goes on. -/
def resetPulse (s : State) : State :=
  { s with toBlock := Block.reset, response := none, resets := s.resets + 1 }

/-- One host event. -/
def perform (e : HostEvent) (s : State) : Host.Outcome State Fault Refusal :=
  match e with
  | .read addr size => .next (hostRead addr size s)
  | .write addr size v => hostWrite addr size v s
  | .reset => .next (resetPulse s)

/-- The next host event, if any, taken off the script; between transactions the block is idle and holds its state (R253). -/
def stepPending (s : State) : Host.Outcome State Fault Refusal :=
  match s.pending with
  | [] => .next s
  | e :: rest => perform e { s with pending := rest }

/-- The event that issues a command word: a word write to `CMD` (R105 `cmd`). -/
def commandWrite (w : Word) : HostEvent := .write 0#18 .word w

/-- The state with the command word `w` next on the host's script. -/
def State.issueNext (s : State) (w : Word) : State := { s with pending := commandWrite w :: s.pending }

end Sys2Proof.Machine
end

