-- ==== Sys2Proof/Machine/Step.lean ====
section
/-! DEFINITION. The step: one host transaction, including, for a write to `CMD`, the whole command (00_scope.md R6). -/

namespace Sys2Proof.Machine

/-- One step of the machine (R6). -/
def step (s : State) : Host.Outcome State Fault Refusal := stepPending s

/-- `s` with the command word `w` next: a write of it to `CMD` is put in front of the pending host events (log 2). A command is
one 32-bit word (R90), so the number of bits adds nothing. -/
def State.withFetchWord (s : State) (_nbits w : Nat) : State :=
  s.issueNext (BitVec.ofNat 32 w)

end Sys2Proof.Machine
end

