-- ==== Sys2Proof/Machine/Reference.lean ====
section
/-! DEFINITION. The spec's own forms of two things the model computes in a handier way: the merge loop with `extractMin` over the
set `ACTIVE` (41_tree_builder.md R132, R133), and the bit-by-bit writes of `BENC` (20_memory.md R68). The claims relate them. -/

namespace Sys2Proof.Machine

/-- `n before m` over the arena (R132). -/
def nodeBefore (nodes : List Node) (n m : Nat) : Bool :=
  before ⟨(nodeAt nodes n).weight, n⟩ ⟨(nodeAt nodes m).weight, m⟩

/-- The element of `best :: ns` that is before every other. -/
def leastOf (nodes : List Node) : Nat → List Nat → Nat
  | best, [] => best
  | best, n :: ns => leastOf nodes (if nodeBefore nodes n best then n else best) ns

/-- `extractMin(ACTIVE)` (R132): the element before every other, and the rest of the set. -/
def extractMin (nodes : List Node) : List Nat → Option (Nat × List Nat)
  | [] => none
  | n :: ns => some (leastOf nodes n ns, (n :: ns).erase (leastOf nodes n ns))

/-- The merge loop as R133 writes it, with `ACTIVE` a set of node indices. -/
def mergeByExtractMin : Nat → List Node → List Nat → List Node
  | 0, nodes, _ => nodes
  | fuel + 1, nodes, active =>
    match extractMin nodes active with
    | none => nodes
    | some (a, rest) =>
      match extractMin nodes rest with
      | none => nodes
      | some (b, rest') =>
        mergeByExtractMin fuel
          (nodes ++ [internalNode ((nodeAt nodes a).weight + (nodeAt nodes b).weight) a b])
          (nodes.length :: rest')

/-- `BitWrite`s of consecutive bits from position `j` on (R68). -/
def bitWrites (free : Nat → Byte) : Memory → Nat → BitString → Memory
  | m, _, [] => m
  | m, j, b :: bs => bitWrites free (m.bitWrite free j b) (j + 1) bs

/-- The code map of a table: `assignCodes(buildTree(F))` (R28). -/
def codeMapOf (F : Vector Word 256) : Vector BitString 256 := assignCodes (buildTree F).1 (buildTree F).2

/-- The concatenation of the codewords of a text, in source order (R102). -/
def codewords (code : Vector BitString 256) (T : List Byte) : BitString := T.flatMap (tableGet code)

/-- The child of a node for a bit (R154). -/
def childFor (nodes : List Node) (n : Nat) (b : Bool) : Nat :=
  if b then (nodeAt nodes n).right.toNat else (nodeAt nodes n).left.toNat

/-- The node reached from `n` along a path through internal nodes (R151). -/
def descend (nodes : List Node) : Nat → BitString → Option Nat
  | n, [] => some n
  | n, b :: p => if (nodeAt nodes n).leaf then none else descend nodes (childFor nodes n b) p

end Sys2Proof.Machine
end

