-- ==== Sys2Proof/Machine/Script.lean ====
section
/-! DEFINITION. The host script: its lines and pseudo-operations and their expansion into host transactions (30_encoding.md R105
to R112, 45_control_and_facade.md R203, R204), and the stored form (R103). The concrete text is read in ScriptText.lean. -/

namespace Sys2Proof.Machine

/-- A line of a host script (R105, R108 to R112). -/
inductive Line where
  | wr (t : Target) (v : Word)
  | rd (t : Target) (want : Option Word)
  | cmd (i : Instr)
  | text (T : List Byte)
  | bits (B : BitString)
  | freq (entries : List (Byte × Word))
  | encode
  | decode (lenient : Bool)
  | expect (t : Target) (v : Word)
  | expectHerr (l : Line)
  deriving DecidableEq, Repr

/-- What a line states about a transaction (R105 `-> v`, R112). -/
inductive Expectation where
  | nothing | data (v : Word) | herr
  deriving DecidableEq, Repr

/-- A host transaction with what the script states about it. -/
abbrev ScriptStep := HostEvent × Expectation

/-- The address of an element (R61, R106). -/
def targetAddr : Target → Addr
  | .cmd          => 0x00000#18
  | .status       => 0x00004#18
  | .errInfo      => 0x00008#18
  | .textLen      => 0x0000C#18
  | .bitLen       => 0x00010#18
  | .symCount     => 0x00014#18
  | .nsym         => 0x00018#18
  | .textCap      => 0x0001C#18
  | .bitCap       => 0x00020#18
  | .freq s       => BitVec.ofNat 18 (0x00400 + 4 * s.toNat)
  | .codeLen s    => BitVec.ofNat 18 (0x00800 + 4 * s.toNat)
  | .codeBits s w => BitVec.ofNat 18 (0x02000 + 32 * s.toNat + 4 * w.toNat)
  | .text i       => BitVec.ofNat 18 (0x10000 + i.toNat)
  | .bitsb b      => BitVec.ofNat 18 (0x20000 + b.toNat)

/-- `wr <target>, <value>` (R105). -/
def wrEvent (t : Target) (v : Word) : HostEvent := .write (targetAddr t) (accessSizeOf t) v

/-- `rd <target>` (R105). -/
def rdEvent (t : Target) : HostEvent := .read (targetAddr t) (accessSizeOf t)

/-- The packed bytes of a bit string, the last one padded with zero bits (R66, R109). -/
def packBits (B : BitString) : List Byte :=
  (List.range ((B.length + 7) / 8)).map (fun k => overlayByte ((B.drop (8 * k)).take 8) 0#8)

/-- The writes of bytes to consecutive elements of a byte window. -/
def byteWrites (at' : BitVec 16 → Target) (bytes : List Byte) : List HostEvent :=
  bytes.zipIdx.map (fun (b, i) => wrEvent (at' (BitVec.ofNat 16 i)) (b.setWidth 32))

/-- Expansion of `text` (R108): the bytes, then the length. -/
def textEvents (T : List Byte) : List HostEvent :=
  byteWrites .text T ++ [wrEvent .textLen (BitVec.ofNat 32 T.length)]

/-- Expansion of `bits` (R109): the packed bytes, then the exact bit count. -/
def bitsEvents (B : BitString) : List HostEvent :=
  byteWrites .bitsb (packBits B) ++ [wrEvent .bitLen (BitVec.ofNat 32 B.length)]

/-- The value `freq` lists for a symbol, 0 when it lists none (R110). -/
def freqValue (entries : List (Byte × Word)) (s : Byte) : Word := (entries.lookup s).getD 0#32

/-- Expansion of `freq` (R110): all 256 entries in ascending order. -/
def freqEvents (entries : List (Byte × Word)) : List HostEvent :=
  (List.range 256).map (fun k =>
    let s := BitVec.ofNat 8 k
    wrEvent (.freq s) (freqValue entries s))

/-- `cmd <MNEMONIC>` (R105): the command word written to `CMD`. -/
def cmdEvent (i : Instr) : HostEvent := commandWrite (encode i)

/-- `ENCODE` (R203). -/
def encodeCommands : List Instr := [.fcnt, .tbld false, .casn, .benc]

/-- `DECODE` and `DECODE.L` (R204). -/
def decodeCommands (lenient : Bool) : List Instr := [.bdec lenient false]

/-- Transactions about which the script states nothing. -/
def unstated (es : List HostEvent) : List ScriptStep := es.map (fun e => (e, .nothing))

/-- The expansion of a line into host transactions with what it states of each. DESIGN CHOICE (log 12): `expect herr:` before a
line of several transactions states `herr` of every one of them, and it replaces an expectation the line has of its own; R112
speaks of "the transaction" only. -/
def Line.expand : Line → List ScriptStep
  | .wr t v         => unstated [wrEvent t v]
  | .rd t none      => unstated [rdEvent t]
  | .rd t (some v)  => [(rdEvent t, .data v)]
  | .cmd i          => unstated [cmdEvent i]
  | .text T         => unstated (textEvents T)
  | .bits B         => unstated (bitsEvents B)
  | .freq entries   => unstated (freqEvents entries)
  | .encode         => unstated (encodeCommands.map cmdEvent)
  | .decode lenient => unstated ((decodeCommands lenient).map cmdEvent)
  | .expect t v     => [(rdEvent t, .data v)]
  | .expectHerr l   => l.expand.map (fun p => (p.1, .herr))

/-- A script's transactions, line by line from the top (R105). -/
def expandScript (ls : List Line) : List ScriptStep := ls.flatMap Line.expand

/-- The state with a script's transactions next on the host's list (log 1). -/
def State.load (s : State) (ls : List Line) : State :=
  { s with pending := (expandScript ls).map (·.1) ++ s.pending }

/-- Whether a transaction ended as the script states (R112). -/
def Expectation.met : Expectation → Option HostResponse → Bool
  | .nothing, _ => true
  | .data v, some (.data v') => v == v'
  | .data _, _ => false
  | .herr, some (.herr _) => true
  | .herr, _ => false

/-- A script run from a state: the end state, and whether every transaction ended as stated. -/
def runScript : List ScriptStep → State → Bool → Option (State × Bool)
  | [], s, ok => some (s, ok)
  | (e, x) :: rest, s, ok =>
    match perform e s with
    | .next t => runScript rest t (ok && x.met t.response)
    | .fault _ => none
    | .refused _ => none

/-- The stored (wire) form (R103): the 256 frequency words, the exact bit count, the packed bytes. -/
structure StoredForm where
  frequencies : List Word
  bitCount    : Word
  bytes       : List Byte
  deriving DecidableEq, Repr

/-- What the host reads out to keep (R103, R266). -/
def State.storedForm (s : State) : StoredForm :=
  { frequencies := s.freq.toList, bitCount := s.bitLen
    bytes := (List.range ((s.bitLen.toNat + 7) / 8)).map s.bitsbAt }

/-- The writes that load a stored form before a decode (R103, R267). -/
def StoredForm.events (f : StoredForm) : List HostEvent :=
  f.frequencies.zipIdx.map (fun (v, k) => wrEvent (.freq (BitVec.ofNat 8 k)) v)
    ++ byteWrites .bitsb f.bytes ++ [wrEvent .bitLen f.bitCount]

end Sys2Proof.Machine
end

