-- ==== Sys2Proof/Safety.lean ====
section
/-! DEFINITION. What the claims mean by a safe state and a safe run: the invariant of 10_state.md R47, and runs of commands and of
host events in which each one ends as it should. -/

namespace Sys2Proof.Machine

/-- Every entry is at most `FREQ_MAX`, i.e. has bit 31 clear (R35, R130). -/
def legalTable (F : Vector Word 256) : Prop := ∀ s : Byte, (tableGet F s).msb = false

/-- The flag `C` check (R130): with `C`, the total is the asserted symbol count. -/
def totalOk (c : Bool) (F : Vector Word 256) (N : Word) : Prop := c = true → freqTotal F = N.toNat

/-- A buffer in canonical form with every listed index inside the buffer. -/
def bufferOk (m : Memory) (cap : Nat) : Prop := m.wf = true ∧ ∀ c ∈ m, c.1 < cap

/-- What holds in every reachable state (R47), with the canonical form of the buffers. -/
structure Inv (s : State) : Prop where
  textLen_le : s.textLen.toNat ≤ Config.textCap
  bitLen_le  : s.bitLen.toNat ≤ Config.bitCap
  nsym_le    : s.nsym.toNat ≤ 256
  reserved   : s.statusWord.extractLsb' 3 5 = 0#5 ∧ s.statusWord.extractLsb' 16 16 = 0#16
  err_le     : s.err.toNat ≤ 6
  tree       : s.treeValid = true → legalTable s.freq ∧ s.node = (buildTree s.freq).1 ∧ s.nsym.toNat = (buildTree s.freq).2
  codeMap    : s.codeValid = true → legalTable s.freq ∧ s.code = codeMapOf s.freq
  /-- R38: the set entries are those of the code map of some legal table, i.e. none, one `"0"`, or the paths of one tree -/
  codeShape  : ∃ F, legalTable F ∧ s.code = codeMapOf F
  arena      : s.node.length ≤ Config.nodeMax
  textOk     : bufferOk s.text Config.textCap
  bitsOk     : bufferOk s.bits (Config.bitCap / 8)

/-- Commands issued one after another; `none` as soon as one does not end in a next state that is `good`. -/
def runCommands (good : State → Bool) : List Instr → State → Option State
  | [], s => some s
  | i :: is, s =>
    match exec i s with
    | .next t => if good t then runCommands good is t else none
    | .fault _ => none
    | .refused _ => none

/-- The command succeeded (R11). -/
def succeeded (s : State) : Bool := s.err == 0#8

/-- The command succeeded under the EmptyInput condition (R29). -/
def succeededEmpty (s : State) : Bool := s.err == 0#8 && s.empty

/-- Host events one after another; `none` as soon as one is not answered with "ok, written". -/
def performWrites : List HostEvent → State → Option State
  | [], s => some s
  | e :: es, s =>
    match perform e s with
    | .next t => if t.response = some .wrote then performWrites es t else none
    | .fault _ => none
    | .refused _ => none

end Sys2Proof.Machine
end

