-- ==== Sys2Proof/Certificates/Slice0/Obligations.lean ====
section
/-! DEFINITION. The statements for the provers, in the order of OBLIGATIONS.json. Each cites the rule it formalises. A statement
about an unwritten byte holds for every value of the free constants of Config. -/

open Sys2Proof Sys2Proof.Machine

/-! ## Command words -/

/-- R96: the ten legal words, the command of each, and the encoder's agreement with them. -/
def Obligations.ExactlyTenCommandWordsDecode : Prop :=
  (∀ (w : Word) (i : Instr), decode w = .ok i ↔
    (w, i) ∈ [(0x01#32, Instr.fcnt), (0x02#32, .tbld false), (0x22#32, .tbld true), (0x03#32, .casn), (0x04#32, .benc),
      (0x05#32, .bdec false false), (0x15#32, .bdec true false), (0x25#32, .bdec false true),
      (0x35#32, .bdec true true), (0x06#32, .clr)]) ∧
  (∀ (w : Word) (i : Instr), decode w = .ok i ↔ w = encode i)

/-- R90, R96, R97: a few words written out from the encoding. -/
def Obligations.SampleCommandWordsDecode : Prop :=
  decode 0x00000001#32 = .ok .fcnt ∧ decode 0x00000022#32 = .ok (.tbld true) ∧
  decode 0x00000015#32 = .ok (.bdec true false) ∧ decode 0x00000006#32 = .ok .clr ∧
  decode 0x00000011#32 = .error .lenientFlag ∧ decode 0x00000024#32 = .error .countFlag ∧
  decode 0x00000007#32 = .error .reservedOp ∧ decode 0x80000001#32 = .error .reservedBits

/-- R97, R241: an illegal word, by each of the four causes, sets ERR, ERRINFO and EMPTY and nothing else; the write ends ok. -/
def Obligations.IllegalWordOnlyRecordsIllegalCommand : Prop :=
  ∀ (s : State) (w : Word) (rest : List HostEvent), s.pending = commandWrite w :: rest →
    (w.extractLsb' 6 26 ≠ 0#26 ∨ w.extractLsb' 0 4 = 0#4 ∨ 7 ≤ (w.extractLsb' 0 4).toNat ∨
      (w.getLsbD 4 = true ∧ w.extractLsb' 0 4 ≠ 5#4) ∨
      (w.getLsbD 5 = true ∧ w.extractLsb' 0 4 ≠ 2#4 ∧ w.extractLsb' 0 4 ≠ 5#4)) →
    step s = .next { s with pending := rest, err := 6#8, errInfo := w, empty := false, response := some .wrote }

/-- R201: a step whose next event writes a legal word to `CMD` is `exec` of the decoded command, the write ends ok; so also the
step after `withFetchWord` (log 2). -/
def Obligations.StepRunsTheIssuedCommand : Prop :=
  (∀ (s t : State) (w : Word) (i : Instr) (rest : List HostEvent), s.pending = commandWrite w :: rest →
    decode w = .ok i → exec i { s with pending := rest } = .next t →
    step s = .next { t with response := some .wrote }) ∧
  (∀ (s t : State) (w : Word) (i : Instr) (n : Nat), decode w = .ok i → exec i s = .next t →
    step (s.withFetchWord n w.toNat) = .next { t with response := some .wrote })

/-- R253, the model's reading in log 1: with no event pending a step changes nothing. -/
def Obligations.IdleBlockHoldsItsState : Prop :=
  ∀ s : State, s.pending = [] → step s = .next s

/-! ## Reset and CLR -/

/-- R261: the reset state, element by element. The last clause is the model's choice, not the spec's: that what R261 leaves
unspecified (TEXT, BITSB, NODE) is these free values, with the reset count 0 (log 4, log 6); nothing is known of them. -/
def Obligations.ResetStateElementByElement : Prop :=
  State.reset.textLen = 0#32 ∧ State.reset.bitLen = 0#32 ∧ State.reset.symCount = 0#32 ∧
  State.reset.statusWord = 0#32 ∧ State.reset.errInfo = 0#32 ∧ State.reset.nsym = 0#9 ∧
  readValue State.reset .textCap = 0x00010000#32 ∧ readValue State.reset .bitCap = 0x00080000#32 ∧
  (∀ b : Byte, tableGet State.reset.freq b = 0#32 ∧ readValue State.reset (.codeLen b) = 0#32 ∧
    ∀ w : BitVec 3, readValue State.reset (.codeBits b w) = 0#32) ∧
  (∀ i : Nat, State.reset.textAt i = Config.unwrittenText 0 i ∧ State.reset.bitsbAt i = Config.unwrittenBits 0 i ∧
    nodeAt State.reset.node i = Config.unspecifiedNode i)

/-- R260, R264: a reset between transactions leaves the reset state of the block; the unwritten bytes are new free values
(the model's choice, log 7). -/
def Obligations.ResetPulseGivesTheResetState : Prop :=
  ∀ (s : State) (rest : List HostEvent), s.pending = .reset :: rest →
    ∃ t, step s = .next t ∧ t.toBlock = State.reset.toBlock ∧ t.pending = rest ∧
      ∀ i, t.textAt i = Config.unwrittenText (s.resets + 1) i ∧ t.bitsbAt i = Config.unwrittenBits (s.resets + 1) i

/-- R200, R263: `CLR` gives every register and table its reset value and keeps TEXT and BITS (and the arena). -/
def Obligations.ClrRestoresRegistersAndTables : Prop :=
  ∀ s : State, exec .clr s =
    .next { s with toBlock := { State.reset.toBlock with text := s.text, bits := s.bits, node := s.node } }

/-! ## FCNT -/

/-- R120, R121: `FCNT` completes, each entry is the number of occurrences of its symbol in TEXT[0..TEXT_LEN), both valid flags
are cleared, and nothing else changes. -/
def Obligations.FcntCountsEachSymbol : Prop :=
  ∀ s : State, s.textLen.toNat ≤ Config.textCap →
    ∃ F, exec .fcnt s = .next { s with freq := F, treeValid := false, codeValid := false
                                       empty := decide (s.textLen = 0#32), err := 0#8, errInfo := 0#32 } ∧
      ∀ b : Byte, (tableGet F b).toNat = s.textOperand.count b

/-- R122: after `FCNT` every count is at most TEXT_LEN and legal, and the counts sum to TEXT_LEN. -/
def Obligations.FcntTotalIsTheTextLength : Prop :=
  ∀ s t : State, s.textLen.toNat ≤ Config.textCap → exec .fcnt s = .next t →
    freqTotal t.freq = s.textLen.toNat ∧ legalTable t.freq ∧ ∀ b : Byte, (tableGet t.freq b).toNat ≤ s.textLen.toNat

/-- R123: after `FCNT`, `TBLD` succeeds, `TBLD.C` succeeds exactly when SYM_COUNT = TEXT_LEN, and the `BENC` after `TBLD` and
`CASN` does not fail with UnknownSymbol. -/
def Obligations.FcntPreparesTheFollowingCommands : Prop :=
  ∀ s t : State, s.textLen.toNat ≤ Config.textCap → exec .fcnt s = .next t →
    (∃ u, exec (.tbld false) t = .next u ∧ u.err = 0#8) ∧
    (∃ u, exec (.tbld true) t = .next u ∧ (u.err = 0#8 ↔ t.symCount = t.textLen)) ∧
    (∃ u, runCommands (fun _ => true) [.tbld false, .casn, .benc] t = some u ∧ u.err ≠ 1#8)

/-! ## TBLD -/

/-- R136: on a legal table (and, under `C`, the asserted total) `TBLD` completes with the built tree in NODE, its number of
symbols in NSYM and TREE_VALID set, and changes nothing else but the outcome. That entries above the tree are no longer listed is
the model's choice (log 6). -/
def Obligations.TbldBuildsTheTree : Prop :=
  ∀ (c : Bool) (s : State), legalTable s.freq → totalOk c s.freq s.symCount →
    exec (.tbld c) s = .next { s with node := (buildTree s.freq).1, nsym := BitVec.ofNat 9 (freqSymbols s.freq)
                                      treeValid := true, empty := decide (freqSymbols s.freq = 0)
                                      err := 0#8, errInfo := 0#32 }

/-- R131: the first K entries are the leaves of the present symbols, ascending, with their weights; K is their number. -/
def Obligations.LeavesAreThePresentSymbolsAscending : Prop :=
  ∀ F : Vector Word 256,
    (buildTree F).2 = freqSymbols F ∧
    (∀ i, i < freqSymbols F →
      let x := nodeAt (buildTree F).1 i
      x.leaf = true ∧ tableGet F x.sym ≠ 0#32 ∧ x.weight = (tableGet F x.sym).setWidth 40 ∧
        x.left = 0x1FF#9 ∧ x.right = 0x1FF#9) ∧
    (∀ i j, i < j → j < freqSymbols F → (nodeAt (buildTree F).1 i).sym.toNat < (nodeAt (buildTree F).1 j).sym.toNat) ∧
    (∀ b : Byte, tableGet F b ≠ 0#32 → ∃ i, i < freqSymbols F ∧ (nodeAt (buildTree F).1 i).sym = b)

/-- R132, R133: `extractMin` returns the element before every other, and the model's queue builds the arena that the merge loop
over `extractMin` builds. -/
def Obligations.MergeLoopExtractsTheLeastTwo : Prop :=
  (∀ (nodes : List Node) (active rest : List Nat) (a : Nat), active.Nodup →
    extractMin nodes active = some (a, rest) →
    a ∈ active ∧ rest = active.erase a ∧ ∀ x ∈ rest, nodeBefore nodes a x = true) ∧
  (∀ F : Vector Word 256, (buildTree F).1 =
    mergeByExtractMin (leaves F).length (leaves F) (List.range (leaves F).length))

/-- R44 (a) to (e): the arena of a legal table with at least one symbol is a strict binary tree. -/
def Obligations.ArenaIsAStrictBinaryTree : Prop :=
  ∀ F : Vector Word 256, legalTable F →
    let K := freqSymbols F
    let N := (buildTree F).1
    (K = 0 → N = []) ∧
    (1 ≤ K → N.length = 2 * K - 1 ∧ root K = 2 * K - 2 ∧
      (∀ n, n < K → (nodeAt N n).leaf = true) ∧
      (∀ n m, n < m → m < K → (nodeAt N n).sym.toNat < (nodeAt N m).sym.toNat) ∧
      (∀ n, K ≤ n → n < 2 * K - 1 →
        (nodeAt N n).leaf = false ∧ (nodeAt N n).left ≠ (nodeAt N n).right ∧
        (nodeAt N n).left.toNat < n ∧ (nodeAt N n).right.toNat < n) ∧
      (∀ m, m < 2 * K - 2 → ∃ n, (K ≤ n ∧ n < 2 * K - 1 ∧ ((nodeAt N n).left.toNat = m ∨ (nodeAt N n).right.toNat = m)) ∧
        ∀ n', K ≤ n' → n' < 2 * K - 1 → ((nodeAt N n').left.toNat = m ∨ (nodeAt N n').right.toNat = m) → n' = n) ∧
      (nodeAt N (root K)).weight.toNat = freqTotal F)

/-- R43, R140, R217: no weight addition wraps: every internal node's weight is the sum of its children's as integers, the root's
is the table total. -/
def Obligations.WeightsAreConserved : Prop :=
  ∀ F : Vector Word 256, legalTable F → 1 ≤ freqSymbols F →
    let N := (buildTree F).1
    (nodeAt N (root (freqSymbols F))).weight.toNat = freqTotal F ∧
    ∀ n, freqSymbols F ≤ n → n < 2 * freqSymbols F - 1 →
      (nodeAt N n).weight.toNat =
        (nodeAt N (nodeAt N n).left.toNat).weight.toNat + (nodeAt N (nodeAt N n).right.toNat).weight.toNat

/-- R130, R136, R188: the lowest negative entry is reported by `TBLD` and `BDEC` whatever the flags, and NODE, NSYM, TEXT and
everything but the entry clears are untouched. -/
def Obligations.LowestNegativeEntryIsReported : Prop :=
  ∀ (s : State) (x : Byte) (l c : Bool), (tableGet s.freq x).msb = true →
    (∀ y : Byte, y.toNat < x.toNat → (tableGet s.freq y).msb = false) →
    exec (.tbld c) s = .next { s with treeValid := false, empty := false, err := 3#8, errInfo := x.setWidth 32 } ∧
    exec (.bdec l c) s = .next { s with treeValid := false, textLen := 0#32, empty := false, err := 3#8
                                        errInfo := x.setWidth 32 }

/-- R130: under flag `C` a legal table whose total, as a mathematical sum, is not SYM_COUNT is reported with 0x100. -/
def Obligations.WrongTotalIsReportedUnderFlagC : Prop :=
  ∀ (s : State) (l : Bool), legalTable s.freq → freqTotal s.freq ≠ s.symCount.toNat →
    exec (.tbld true) s = .next { s with treeValid := false, empty := false, err := 3#8, errInfo := 0x100#32 } ∧
    exec (.bdec l true) s = .next { s with treeValid := false, textLen := 0#32, empty := false, err := 3#8
                                           errInfo := 0x100#32 }

/-! ## CASN -/

/-- R150, R151, R153: on the valid tree of FREQ (R44) `CASN` completes: CODE is the table's code map, absent symbols are unset, the
one symbol of K = 1 has "0", and for K >= 2 each present symbol has the path from the root to its leaf; the tree is discarded and
nothing else changes but the outcome. -/
def Obligations.CasnAssignsTheTreePaths : Prop :=
  ∀ s : State, s.treeValid = true → s.node = (buildTree s.freq).1 → s.nsym.toNat = (buildTree s.freq).2 →
    ∃ M, exec .casn s = .next { s with code := M, codeValid := true, treeValid := false
                                       empty := decide (s.nsym = 0#9), err := 0#8, errInfo := 0#32 } ∧
      M = codeMapOf s.freq ∧
      (∀ b : Byte, tableGet s.freq b = 0#32 → tableGet M b = []) ∧
      (s.nsym = 1#9 → ∀ b : Byte, tableGet s.freq b ≠ 0#32 → tableGet M b = [false]) ∧
      (2 ≤ s.nsym.toNat → ∀ b : Byte, tableGet s.freq b ≠ 0#32 →
        ∃ n, n < s.nsym.toNat ∧ (nodeAt s.node n).sym = b ∧
          descend s.node (root s.nsym.toNat) (tableGet M b) = some n)

/-- R150: without a valid tree `CASN` fails with SequenceError and keeps CODE. -/
def Obligations.CasnNeedsAValidTree : Prop :=
  ∀ s : State, s.treeValid = false →
    exec .casn s = .next { s with codeValid := false, empty := false, err := 4#8, errInfo := 0#32 }

/-- R216: after every successful `CASN` (on the valid tree of FREQ, R44) no set codeword is a prefix of another symbol's; in
particular they are distinct. -/
def Obligations.CodewordsArePrefixFree : Prop :=
  ∀ s : State, s.treeValid = true → s.node = (buildTree s.freq).1 → s.nsym.toNat = (buildTree s.freq).2 →
    ∃ t, exec .casn s = .next t ∧ t.err = 0#8 ∧
      ∀ a b : Byte, a ≠ b → tableGet t.code a ≠ [] → tableGet t.code b ≠ [] →
        ¬ tableGet t.code a <+: tableGet t.code b

/-- R155, R156, R222: exactly the present symbols are set; lengths are at least 1, at most K - 1 for K >= 2, 1 for K = 1. -/
def Obligations.CodewordLengthsAreBounded : Prop :=
  ∀ (F : Vector Word 256) (b : Byte),
    (tableGet (codeMapOf F) b ≠ [] ↔ tableGet F b ≠ 0#32) ∧
    (tableGet F b ≠ 0#32 →
      1 ≤ (tableGet (codeMapOf F) b).length ∧
      (2 ≤ freqSymbols F → (tableGet (codeMapOf F) b).length ≤ freqSymbols F - 1) ∧
      (freqSymbols F = 1 → (tableGet (codeMapOf F) b).length = 1))

/-- R224: the code of at least two symbols is complete: the sum of 2^(-LEN) over the present symbols is 1 (times 2^255). -/
def Obligations.CodeIsComplete : Prop :=
  ∀ F : Vector Word 256, 2 ≤ freqSymbols F →
    ((List.range 256).map (fun k =>
      let n := (tableGet (codeMapOf F) (BitVec.ofNat 8 k)).length
      if n = 0 then 0 else 2 ^ (255 - n))).sum = 2 ^ 255

/-- The false variant (d) of R228: "a codeword is never longer than 8 bits". -/
def Obligations.CodewordsNeverExceedEightBits : Prop :=
  ∀ (F : Vector Word 256) (b : Byte), legalTable F → (tableGet (codeMapOf F) b).length ≤ 8

/-! ## BENC -/

/-- R165, R166, R69: on a nonempty text whose every byte has a codeword, with a valid code map and room in BITS, `BENC` completes:
BITS holds the concatenated codewords, the rest of the last byte is zero, later bytes are as before, BIT_LEN is the exact length,
and nothing else changes but the outcome. -/
def Obligations.BencStoresTheConcatenatedCodewords : Prop :=
  ∀ s : State, s.textLen ≠ 0#32 → s.codeValid = true → (∀ b ∈ s.textOperand, tableGet s.code b ≠ []) →
    (codewords s.code s.textOperand).length ≤ Config.bitCap →
    let out := codewords s.code s.textOperand
    let free := Config.unwrittenBits s.resets
    encodeBits s.code s.textOperand = .ok out ∧
    ∃ m, exec .benc s = .next { s with bits := m, bitLen := BitVec.ofNat 32 out.length, empty := false
                                       err := 0#8, errInfo := 0#32 } ∧
      (∀ j (h : j < out.length), m.bitAt free j = out[j]) ∧
      (∀ j, out.length ≤ j → j < 8 * ((out.length + 7) / 8) → m.bitAt free j = false) ∧
      (∀ b, (out.length + 7) / 8 ≤ b → m.byteAt free b = s.bitsbAt b)

/-- R165, R220: an empty text succeeds whatever the code map, with BIT_LEN 0 and BITS untouched. -/
def Obligations.BencOfAnEmptyTextSucceeds : Prop :=
  ∀ s : State, s.textLen = 0#32 →
    exec .benc s = .next { s with bitLen := 0#32, empty := true, err := 0#8, errInfo := 0#32 }

/-- R169: the state after a failed `BENC`: SequenceError leaves BITS untouched; UnknownSymbol or CapacityExceeded at byte `i` leaves
the codewords of the bytes before it, no padding, and every other bit unchanged; BIT_LEN is 0 in each case. -/
def Obligations.FailedBencLeavesTheCodewordsBefore : Prop :=
  (∀ s : State, s.textLen ≠ 0#32 → s.codeValid = false →
    exec .benc s = .next { s with bitLen := 0#32, empty := false, err := 4#8, errInfo := 0#32 }) ∧
  (∀ (s : State) (before after : List Byte) (b : Byte), s.codeValid = true → s.textOperand = before ++ b :: after →
    (∀ x ∈ before, tableGet s.code x ≠ []) → (codewords s.code before).length ≤ Config.bitCap →
    let done := codewords s.code before
    let free := Config.unwrittenBits s.resets
    (tableGet s.code b = [] →
      ∃ m, exec .benc s = .next { s with bits := m, bitLen := 0#32, empty := false, err := 1#8
                                         errInfo := BitVec.ofNat 32 before.length } ∧
        ∀ j, m.bitAt free j = done[j]?.getD (s.bitAt j)) ∧
    (tableGet s.code b ≠ [] → Config.bitCap < done.length + (tableGet s.code b).length →
      ∃ m, exec .benc s = .next { s with bits := m, bitLen := 0#32, empty := false, err := 5#8
                                         errInfo := BitVec.ofNat 32 before.length } ∧
        ∀ j, m.bitAt free j = done[j]?.getD (s.bitAt j)))

/-- R223: the length of the encoding of a text under its own code, as the sum over the symbols of count times length, and for two
or more symbols as the sum of the weights of all internal nodes. -/
def Obligations.EncodedLengthIsTheInternalWeight : Prop :=
  ∀ T : List Byte, T.length ≤ Config.textCap →
    let F := tableMap (BitVec.ofNat 32) (countFreq T)
    let n := (codewords (codeMapOf F) T).length
    n = ((List.range 256).map (fun k =>
      (tableGet F (BitVec.ofNat 8 k)).toNat * (tableGet (codeMapOf F) (BitVec.ofNat 8 k)).length)).sum ∧
    (2 ≤ freqSymbols F → n = (((buildTree F).1.filter (fun x => !x.leaf)).map (fun x => x.weight.toNat)).sum) ∧
    (freqSymbols F = 1 → n = T.length)

/-- R68, log 9: for a buffer in canonical form the model's bytewise store of a bit string is the `BitWrite`s of its bits. -/
def Obligations.StoredBitsAreSingleBitWrites : Prop :=
  ∀ (free : Nat → Byte) (m : Memory) (bs : BitString), m.wf = true → m.putBits free bs = bitWrites free m 0 bs

/-! ## BDEC -/

/-- R180, R181, R183, R184: on a legal table (and, under `C`, the asserted total), when the bit string is the concatenation of the
codewords of a text that fits TEXT, `BDEC` completes in both modes with that text in TEXT, later bytes as before, the rebuilt tree
discarded, and nothing else changed but the outcome. That NODE still lists the discarded tree is the model's choice (log 6). -/
def Obligations.BdecRecoversTheEncodedText : Prop :=
  ∀ (l c : Bool) (s : State) (T : List Byte), legalTable s.freq → totalOk c s.freq s.symCount →
    (∀ b ∈ T, tableGet s.freq b ≠ 0#32) → T.length ≤ Config.textCap →
    s.bitsOperand = codewords (codeMapOf s.freq) T →
    ∃ m, exec (.bdec l c) s = .next { s with text := m, textLen := BitVec.ofNat 32 T.length
                                             node := (buildTree s.freq).1, nsym := BitVec.ofNat 9 (freqSymbols s.freq)
                                             treeValid := false, empty := decide (freqSymbols s.freq = 0)
                                             err := 0#8, errInfo := 0#32 } ∧
      ∀ i, m.byteAt (Config.unwrittenText s.resets) i = T[i]?.getD (s.textAt i)

/-- R190: decoding inverts encoding under the code map and tree of one table, in both modes (in strict mode that says that the walk
ends at the root). -/
def Obligations.DecodingInvertsEncoding : Prop :=
  ∀ (F : Vector Word 256) (T : List Byte) (l : Bool), (∀ b ∈ T, tableGet (codeMapOf F) b ≠ []) →
    T.length ≤ Config.textCap →
    ∃ B, encodeBits (codeMapOf F) T = .ok B ∧ decodeBits B (buildTree F).1 (buildTree F).2 l = (T, none)

/-- R226: texts over the present symbols with the same encoding are the same text. -/
def Obligations.EncodingIsUniquelyDecodable : Prop :=
  ∀ (F : Vector Word 256) (T T' : List Byte), (∀ b ∈ T, tableGet F b ≠ 0#32) → (∀ b ∈ T', tableGet F b ≠ 0#32) →
    encodeBits (codeMapOf F) T = encodeBits (codeMapOf F) T' → T = T'

/-- R185: leftover bits, a nonempty proper prefix of a codeword after whole codewords: strict mode reports the index of the first
one, lenient mode drops them; both emit the text before. -/
def Obligations.LeftoverBitsStrictAndLenient : Prop :=
  ∀ (F : Vector Word 256) (T : List Byte) (b : Byte) (p : BitString), 2 ≤ freqSymbols F →
    (∀ x ∈ T, tableGet F x ≠ 0#32) → T.length ≤ Config.textCap → tableGet F b ≠ 0#32 →
    p ≠ [] → p <+: tableGet (codeMapOf F) b → p ≠ tableGet (codeMapOf F) b →
    let B := codewords (codeMapOf F) T
    decodeBits (B ++ p) (buildTree F).1 (buildTree F).2 false =
      (T, some ⟨.malformedBitStream, BitVec.ofNat 32 B.length⟩) ∧
    decodeBits (B ++ p) (buildTree F).1 (buildTree F).2 true = (T, none)

/-- R184: a table of one symbol `u`: each 0 emits `u`, a 1 at bit `n` is malformed in both modes, and the symbol after TEXT_CAP
exceeds the capacity. -/
def Obligations.SingleSymbolDecoding : Prop :=
  ∀ (F : Vector Word 256) (u : Byte) (l : Bool), freqSymbols F = 1 → tableGet F u ≠ 0#32 →
    let decodes := fun B => decodeBits B (buildTree F).1 (buildTree F).2 l
    (∀ n, n ≤ Config.textCap → decodes (List.replicate n false) = (List.replicate n u, none)) ∧
    (∀ n B, n ≤ Config.textCap → decodes (List.replicate n false ++ true :: B) =
      (List.replicate n u, some ⟨.malformedBitStream, BitVec.ofNat 32 n⟩)) ∧
    (∀ B, decodes (List.replicate (Config.textCap + 1) false ++ B) =
      (List.replicate Config.textCap u, some ⟨.capacityExceeded, BitVec.ofNat 32 Config.textCap⟩))

/-- R182: no symbol in the table: an empty bit string, or any in lenient mode, succeeds with the empty text; a nonempty one in
strict mode is malformed at bit 0. The arena, which has no node with a meaning then, is left open. -/
def Obligations.DecodingWithoutSymbols : Prop :=
  ∀ (l c : Bool) (s : State), (∀ b : Byte, tableGet s.freq b = 0#32) → totalOk c s.freq s.symCount →
    (s.bitLen = 0#32 ∨ l = true →
      ∃ N, exec (.bdec l c) s = .next { s with textLen := 0#32, treeValid := false, node := N, nsym := 0#9
                                               empty := true, err := 0#8, errInfo := 0#32 }) ∧
    (s.bitLen ≠ 0#32 → l = false →
      ∃ N, exec (.bdec l c) s = .next { s with textLen := 0#32, treeValid := false, node := N, nsym := 0#9
                                               empty := false, err := 2#8, errInfo := 0#32 })

/-- R187: for two or more symbols, a stream of TEXT_CAP + 1 codewords fails with the index of the bit that completes the last one,
after TEXT_CAP symbols, whatever follows. -/
def Obligations.DecodedTextIsCapped : Prop :=
  ∀ (F : Vector Word 256) (T : List Byte) (B : BitString) (l : Bool), 2 ≤ freqSymbols F →
    (∀ x ∈ T, tableGet F x ≠ 0#32) → T.length = Config.textCap + 1 →
    decodeBits (codewords (codeMapOf F) T ++ B) (buildTree F).1 (buildTree F).2 l =
      (T.take Config.textCap,
       some ⟨.capacityExceeded, BitVec.ofNat 32 ((codewords (codeMapOf F) T).length - 1)⟩)

/-- R188: after a failure of the walk NSYM and NODE are the rebuilt tree's, TEXT holds the symbols emitted before the failure and
is unchanged from there on, TEXT_LEN is 0, and nothing else changes but the outcome. That NODE still lists the rebuilt tree is the
model's choice (log 6). -/
def Obligations.FailedBdecLeavesTheSymbolsBefore : Prop :=
  ∀ (l c : Bool) (s : State) (out : List Byte) (r : Raise), legalTable s.freq → totalOk c s.freq s.symCount →
    decodeBits s.bitsOperand (buildTree s.freq).1 (buildTree s.freq).2 l = (out, some r) →
    (r.failure = .malformedBitStream ∨ r.failure = .capacityExceeded) ∧ out.length ≤ Config.textCap ∧
    ∃ m, exec (.bdec l c) s = .next { s with text := m, textLen := 0#32, node := (buildTree s.freq).1
                                             nsym := BitVec.ofNat 9 (freqSymbols s.freq), treeValid := false
                                             empty := false, err := r.failure.code, errInfo := r.info } ∧
      ∀ i, m.byteAt (Config.unwrittenText s.resets) i = out[i]?.getD (s.textAt i)

/-- The false variant (b) of R228: decoding with the padding bits counted gives the text back. -/
def Obligations.RoundedBitCountDecodesTheText : Prop :=
  ∀ (F : Vector Word 256) (T : List Byte), (∀ b ∈ T, tableGet F b ≠ 0#32) → T.length ≤ Config.textCap →
    let B := codewords (codeMapOf F) T
    decodeBits (B ++ padding B.length) (buildTree F).1 (buildTree F).2 false = (T, none)

/-! ## Whole encode and decode sequences -/

/-- R215: `ENCODE` then `DECODE` (or `DECODE.L`) from any state succeeds command by command and gives the text back, provided the
encoding fits BITS: that premise is G1 of 93_implementation_defined.md, which a model may carry. -/
def Obligations.EncodeThenDecodeRoundTrips : Prop :=
  ∀ (s : State) (l : Bool), s.textLen.toNat ≤ Config.textCap →
    (codewords (codeMapOf (tableMap (BitVec.ofNat 32) (countFreq s.textOperand))) s.textOperand).length ≤ Config.bitCap →
    ∃ t, runCommands succeeded (encodeCommands ++ decodeCommands l) s = some t ∧
      t.textLen = s.textLen ∧ t.textOperand = s.textOperand

/-- R219: a text of one repeated symbol: NSYM 1, code "0", one zero bit per byte and zero padding, and it decodes back. -/
def Obligations.RepeatedSymbolRoundTrips : Prop :=
  ∀ (s : State) (u : Byte) (n : Nat), 1 ≤ n → n ≤ Config.textCap → s.textOperand = List.replicate n u →
    ∃ t, runCommands succeeded encodeCommands s = some t ∧
      t.nsym = 1#9 ∧ tableGet t.code u = [false] ∧ (∀ b, b ≠ u → tableGet t.code b = []) ∧
      t.bitLen = BitVec.ofNat 32 n ∧ (∀ j, j < 8 * ((n + 7) / 8) → t.bitAt j = false) ∧
      ∀ l, ∃ t', runCommands succeeded (decodeCommands l) t = some t' ∧
        t'.textLen = BitVec.ofNat 32 n ∧ t'.textOperand = List.replicate n u

/-- R220: an empty text encodes to nothing, every command succeeding with EMPTY; an empty bit string with an all-zero table decodes
to nothing. -/
def Obligations.EmptyInputSucceedsThroughout : Prop :=
  (∀ s : State, s.textLen = 0#32 →
    ∃ t, runCommands succeededEmpty encodeCommands s = some t ∧
      (∀ b, tableGet t.freq b = 0#32 ∧ tableGet t.code b = []) ∧ t.nsym = 0#9 ∧ t.bitLen = 0#32 ∧ t.bits = s.bits) ∧
  (∀ (s : State) (l : Bool), (∀ b, tableGet s.freq b = 0#32) → s.bitLen = 0#32 →
    ∃ t, runCommands succeededEmpty (decodeCommands l) s = some t ∧ t.textLen = 0#32 ∧ t.text = s.text)

/-- R221: the concrete scenario "abracadabra". -/
def Obligations.AbracadabraScenario : Prop :=
  ∀ s : State, s.textOperand = [0x61#8, 0x62#8, 0x72#8, 0x61#8, 0x63#8, 0x61#8, 0x64#8, 0x61#8, 0x62#8, 0x72#8, 0x61#8] →
    ∃ t, runCommands succeeded encodeCommands s = some t ∧
      tableGet t.freq 0x61#8 = 5#32 ∧ tableGet t.freq 0x62#8 = 2#32 ∧ tableGet t.freq 0x72#8 = 2#32 ∧
      tableGet t.freq 0x63#8 = 1#32 ∧ tableGet t.freq 0x64#8 = 1#32 ∧
      (tableGet t.code 0x61#8).length = 1 ∧ (tableGet t.code 0x62#8).length = 3 ∧ (tableGet t.code 0x63#8).length = 3 ∧
      (tableGet t.code 0x64#8).length = 3 ∧ (tableGet t.code 0x72#8).length = 3 ∧
      t.bitLen = 23#32 ∧
      ∃ t', runCommands succeeded (decodeCommands false) t = some t' ∧ t'.textOperand = s.textOperand

/-! ## Rules over all commands -/

/-- R245, R41: no command, successful or not, writes an element that R41 does not list for it; the valid flags are elements too.
EMPTY, ERR and ERRINFO have no clause: every command writes them (R29, R30, R31). -/
def Obligations.CommandsWriteOnlyTheirOutputs : Prop :=
  ∀ (i : Instr) (s t : State), exec i s = .next t →
    (t.pending = s.pending ∧ t.response = s.response ∧ t.resets = s.resets ∧ t.draws = s.draws) ∧
    (i ≠ .clr → t.symCount = s.symCount) ∧
    (i ≠ .fcnt → i ≠ .clr → t.freq = s.freq) ∧
    (i ≠ .casn → i ≠ .clr → t.code = s.code) ∧
    ((∀ l c, i ≠ .bdec l c) → (∀ a, t.textAt a = s.textAt a) ∧ (i ≠ .clr → t.textLen = s.textLen)) ∧
    (i ≠ .benc → (∀ a, t.bitsbAt a = s.bitsbAt a) ∧ (i ≠ .clr → t.bitLen = s.bitLen)) ∧
    ((∀ c, i ≠ .tbld c) → (∀ l c, i ≠ .bdec l c) → t.node = s.node ∧ (i ≠ .clr → t.nsym = s.nsym)) ∧
    (i = .benc → t.treeValid = s.treeValid) ∧
    (i = .benc ∨ (∃ c, i = .tbld c) ∨ (∃ l c, i = .bdec l c) → t.codeValid = s.codeValid)

/-- R246: a failed command issued again fails again with the same code and the same ERRINFO. -/
def Obligations.FailedCommandFailsAgain : Prop :=
  ∀ (i : Instr) (s t : State), exec i s = .next t → t.err ≠ 0#8 →
    ∃ u, exec i t = .next u ∧ u.err = t.err ∧ u.errInfo = t.errInfo

/-- R206: what each command needs to succeed, and the valid flags after its success and its failure. -/
def Obligations.ValidFlagsFollowTheCommandTable : Prop :=
  ∀ s t : State,
    (exec .fcnt s = .next t → t.err = 0#8 ∧ t.treeValid = false ∧ t.codeValid = false) ∧
    (∀ c, exec (.tbld c) s = .next t →
      (t.err = 0#8 ↔ legalTable s.freq ∧ totalOk c s.freq s.symCount) ∧
      t.treeValid = decide (t.err = 0#8) ∧ t.codeValid = s.codeValid) ∧
    (exec .casn s = .next t →
      (t.err = 0#8 ↔ s.treeValid = true) ∧ t.treeValid = false ∧ t.codeValid = decide (t.err = 0#8)) ∧
    (exec .benc s = .next t →
      (t.err = 0#8 → s.codeValid = true ∨ s.textLen = 0#32) ∧ t.treeValid = s.treeValid ∧ t.codeValid = s.codeValid) ∧
    (∀ l c, exec (.bdec l c) s = .next t →
      (t.err = 0#8 → legalTable s.freq ∧ totalOk c s.freq s.symCount) ∧
      t.treeValid = false ∧ t.codeValid = s.codeValid) ∧
    (exec .clr s = .next t → t.err = 0#8 ∧ t.treeValid = false ∧ t.codeValid = false)

/-- R27, R28: a step sets TREE_VALID only by a successful `TBLD`, CODE_VALID only by a successful `CASN`. -/
def Obligations.ValidFlagsAreSetOnlyByTheirCommands : Prop :=
  ∀ s t : State, step s = .next t →
    (s.treeValid = false → t.treeValid = true →
      ∃ c rest, s.pending = commandWrite (encode (.tbld c)) :: rest ∧ t.err = 0#8) ∧
    (s.codeValid = false → t.codeValid = true →
      ∃ rest, s.pending = commandWrite (encode .casn) :: rest ∧ t.err = 0#8)

/-- R29, R30, R31: a step that neither writes `CMD` nor resets leaves ERR, ERRINFO and EMPTY alone. -/
def Obligations.OutcomeChangesOnlyByCommands : Prop :=
  ∀ s t : State, step s = .next t →
    (∀ w rest, s.pending ≠ commandWrite w :: rest) → (∀ rest, s.pending ≠ .reset :: rest) →
    t.err = s.err ∧ t.errInfo = s.errInfo ∧ t.empty = s.empty

/-! ## Registers, windows and the host port -/

/-- R26: the fields of the STATUS word. -/
def Obligations.StatusWordFields : Prop :=
  ∀ s : State,
    s.statusWord.getLsbD 0 = s.treeValid ∧ s.statusWord.getLsbD 1 = s.codeValid ∧ s.statusWord.getLsbD 2 = s.empty ∧
    s.statusWord.extractLsb' 3 5 = 0#5 ∧ s.statusWord.extractLsb' 8 8 = s.err ∧ s.statusWord.extractLsb' 16 16 = 0#16

/-- R66: bit `j` of the bit string is bit `7 - (j mod 8)` of byte `floor(j/8)`. -/
def Obligations.StreamBitsAreMostSignificantFirst : Prop :=
  ∀ (s : State) (j : Nat), j < Config.bitCap → s.bitAt j = (s.bitsbAt (j / 8)).getLsbD (7 - j % 8)

/-- R101: the code windows of a codeword of at most 255 bits. -/
def Obligations.CodeWindowsShowTheCodeword : Prop :=
  ∀ (s : State) (b : Byte), (tableGet s.code b).length ≤ 255 →
    readValue s (.codeLen b) = BitVec.ofNat 32 (tableGet s.code b).length ∧
    ∀ t, t < 256 → (readValue s (.codeBits b (BitVec.ofNat 3 (t / 32)))).getLsbD (31 - t % 32) =
      (tableGet s.code b)[t]?.getD false

/-- R61, R62, R106: each element is at its address, and exactly the listed ranges are unmapped. -/
def Obligations.AddressMapIsTheTable : Prop :=
  (∀ x : Target, targetAt (targetAddr x) = some x) ∧
  (∀ a : Addr, targetAt a = none ↔
    (0x00024 ≤ a.toNat ∧ a.toNat ≤ 0x003FF) ∨ (0x00C00 ≤ a.toNat ∧ a.toNat ≤ 0x01FFF) ∨
    (0x04000 ≤ a.toNat ∧ a.toNat ≤ 0x0FFFF) ∨ 0x30000 ≤ a.toNat)

/-- R65: exactly which transactions end ok, by address, size, direction and value; all others end in `herr` and change no state
of the block. -/
def Obligations.TransactionsEndOkExactly : Prop :=
  ∀ (s : State) (rest : List HostEvent) (a : Addr) (size : AccessSize) (v : Word),
    (s.pending = .read a size :: rest → ∃ t, step s = .next t ∧ t.toBlock = s.toBlock ∧ t.pending = rest ∧
      if (size = .word ∧ a.toNat % 4 = 0 ∧ ((0x4 ≤ a.toNat ∧ a.toNat < 0x24) ∨ (0x400 ≤ a.toNat ∧ a.toNat < 0xC00) ∨
            (0x2000 ≤ a.toNat ∧ a.toNat < 0x4000))) ∨
          (size = .byte ∧ 0x10000 ≤ a.toNat ∧ a.toNat < 0x30000)
      then ∃ d, t.response = some (.data d)
      else ∃ d, t.response = some (.herr d)) ∧
    (s.pending = .write a size v :: rest → ∃ t, step s = .next t ∧ t.pending = rest ∧
      if (size = .word ∧ (a.toNat = 0 ∨ (a.toNat = 0xC ∧ v.toNat ≤ Config.textCap) ∨
            (a.toNat = 0x10 ∧ v.toNat ≤ Config.bitCap) ∨ a.toNat = 0x14 ∨
            (a.toNat % 4 = 0 ∧ 0x400 ≤ a.toNat ∧ a.toNat < 0x800))) ∨
          (size = .byte ∧ 0x10000 ≤ a.toNat ∧ a.toNat < 0x30000)
      then t.response = some .wrote
      else (∃ d, t.response = some (.herr d)) ∧ t.toBlock = s.toBlock)

/-- R60, R71: a read of an element other than `CMD` answers with its value and changes nothing of the block. The value is spelled
out element by element (R21 to R23, R26, R31 to R35, R39, R40; a byte in bits 7:0, R78; the fields of the STATUS word are in
StatusWordFields); the code windows' values are those of CodeWindowsShowTheCodeword. -/
def Obligations.HostReadsReturnTheElement : Prop :=
  ∀ (s : State) (rest : List HostEvent),
    let answers := fun (x : Target) (v : Word) => s.pending = rdEvent x :: rest →
      step s = .next { s with pending := rest, response := some (.data v) }
    answers .status s.statusWord ∧ answers .errInfo s.errInfo ∧ answers .textLen s.textLen ∧ answers .bitLen s.bitLen ∧
    answers .symCount s.symCount ∧ answers .nsym (s.nsym.setWidth 32) ∧
    answers .textCap 0x00010000#32 ∧ answers .bitCap 0x00080000#32 ∧
    (∀ b, answers (.freq b) (tableGet s.freq b)) ∧
    (∀ b, answers (.codeLen b) (readValue s (.codeLen b))) ∧
    (∀ b w, answers (.codeBits b w) (readValue s (.codeBits b w))) ∧
    (∀ i, answers (.text i) ((s.textAt i.toNat).setWidth 32)) ∧
    (∀ b, answers (.bitsb b) ((s.bitsbAt b.toNat).setWidth 32))

/-- R63, R21, R22, R23, R36: what each write that ends ok stores. -/
def Obligations.HostWritesStoreTheElement : Prop :=
  ∀ (s : State) (v : Word) (rest : List HostEvent),
    (s.pending = wrEvent .textLen v :: rest → v.toNat ≤ Config.textCap →
      step s = .next { s with pending := rest, response := some .wrote, textLen := v }) ∧
    (s.pending = wrEvent .bitLen v :: rest → v.toNat ≤ Config.bitCap →
      step s = .next { s with pending := rest, response := some .wrote, bitLen := v }) ∧
    (s.pending = wrEvent .symCount v :: rest →
      step s = .next { s with pending := rest, response := some .wrote, symCount := v }) ∧
    (∀ x, s.pending = wrEvent (.freq x) v :: rest →
      ∃ F, step s = .next { s with pending := rest, response := some .wrote, freq := F
                                   treeValid := false, codeValid := false } ∧
        ∀ y, tableGet F y = if y = x then v else tableGet s.freq y) ∧
    (∀ i, s.pending = wrEvent (.text i) v :: rest →
      ∃ m, step s = .next { s with pending := rest, response := some .wrote, text := m } ∧
        ∀ a, m.byteAt (Config.unwrittenText s.resets) a = if a = i.toNat then v.extractLsb' 0 8 else s.textAt a) ∧
    (∀ b, s.pending = wrEvent (.bitsb b) v :: rest →
      ∃ m, step s = .next { s with pending := rest, response := some .wrote, bits := m } ∧
        (∀ t, t < 8 → m.bitAt (Config.unwrittenBits s.resets) (8 * b.toNat + t) = v.getLsbD (7 - t)) ∧
        ∀ a, a ≠ b.toNat → m.byteAt (Config.unwrittenBits s.resets) a = s.bitsbAt a)

/-- R108: the expansion of `text` loads the text and its length and changes nothing else of the block. -/
def Obligations.TextLineLoadsTheText : Prop :=
  ∀ (s : State) (T : List Byte), T.length ≤ Config.textCap →
    ∃ t, performWrites (textEvents T) s = some t ∧ t.textOperand = T ∧
      t.toBlock = { s.toBlock with textLen := BitVec.ofNat 32 T.length, text := t.text } ∧
      ∀ i, T.length ≤ i → t.textAt i = s.textAt i

/-- R109: the expansion of `bits` loads the bit string, packed and zero padded, and its exact length, and nothing else. -/
def Obligations.BitsLineLoadsTheBits : Prop :=
  ∀ (s : State) (B : BitString), B.length ≤ Config.bitCap →
    ∃ t, performWrites (bitsEvents B) s = some t ∧ t.bitsOperand = B ∧
      t.toBlock = { s.toBlock with bitLen := BitVec.ofNat 32 B.length, bits := t.bits } ∧
      (∀ j, B.length ≤ j → j < 8 * ((B.length + 7) / 8) → t.bitAt j = false) ∧
      ∀ b, (B.length + 7) / 8 ≤ b → t.bitsbAt b = s.bitsbAt b

/-- R110: the expansion of `freq` loads all 256 entries, whatever was there, and clears the valid flags. Of a symbol
listed twice the first value counts: the model's choice (log 12). -/
def Obligations.FreqLineLoadsTheTable : Prop :=
  ∀ (s : State) (entries : List (Byte × Word)),
    ∃ t, performWrites (freqEvents entries) s = some t ∧
      (∀ b, tableGet t.freq b = (entries.lookup b).getD 0#32) ∧
      t.toBlock = { s.toBlock with freq := t.freq, treeValid := false, codeValid := false }

/-! ## The invariant -/

/-- R227: the reset state satisfies the invariant of R47. -/
def Obligations.ResetStateMeetsTheInvariant : Prop := Inv State.reset

/-- R227: every step, whatever host event it performs and however that ends, keeps the invariant of R47. -/
def Obligations.EveryStepKeepsTheInvariant : Prop :=
  ∀ s t : State, Inv s → step s = .next t → Inv t
end

