-- ==== Sys2Proof/Laws/Memory.lean ====
section
/-! SUPPORT. The buffers: read after write, every memory operation keeps the canonical form, and what the sequences of writes of
`BENC` and `BDEC` do to each bit and byte. -/

namespace Sys2Proof.Machine

/-! ## One byte -/

theorem Memory.lookup_write (m : Memory) (a : Nat) (v : Byte) (x : Nat) :
    (m.write a v).lookup x = if a = x then some v else m.lookup x := by
  induction m with
  | nil => simp [Memory.write, Memory.lookup]
  | cons c m ih =>
    obtain ⟨k, b⟩ := c
    simp only [Memory.write]
    split
    · by_cases h : a = x <;> simp [Memory.lookup, h]
    · split
      · next hk => subst hk; by_cases h : a = x <;> simp [Memory.lookup, h]
      · next hk =>
        by_cases hkx : k = x
        · subst hkx; simp [Memory.lookup, hk]
        · simp [Memory.lookup, hkx, ih]

theorem Memory.byteAt_write (free : Nat → Byte) (m : Memory) (a : Nat) (v : Byte) (x : Nat) :
    (m.write a v).byteAt free x = if a = x then v else m.byteAt free x := by
  unfold Memory.byteAt
  rw [Memory.lookup_write]
  split <;> rfl

/-! ## The canonical form -/

/-- Every index listed after a write was listed before or is the one written. -/
theorem Memory.mem_write {m : Memory} {a : Nat} {v : Byte} {c : Host.Cell} (h : c ∈ m.write a v) :
    c = (a, v) ∨ c ∈ m := by
  induction m with
  | nil => simpa [Memory.write] using h
  | cons d m ih =>
    obtain ⟨k, b⟩ := d
    simp only [Memory.write] at h
    split at h
    · simpa using h
    · split at h
      · rcases List.mem_cons.1 h with h | h
        · exact .inl h
        · exact .inr (List.mem_cons_of_mem _ h)
      · rcases List.mem_cons.1 h with h | h
        · exact .inr (h ▸ List.mem_cons_self)
        · exact (ih h).imp id (List.mem_cons_of_mem _)

theorem Memory.wf_cons {c : Host.Cell} {m : Memory} :
    Memory.wf (c :: m) = true ↔ (∀ d ∈ m, c.1 < d.1) ∧ m.wf = true := by
  simp [Memory.wf]

theorem Memory.wf_write {m : Memory} (a : Nat) (v : Byte) (h : m.wf = true) : (m.write a v).wf = true := by
  induction m with
  | nil => rfl
  | cons d m ih =>
    obtain ⟨k, b⟩ := d
    obtain ⟨hk, hm⟩ := Memory.wf_cons.1 h
    simp only [Memory.write]
    split
    · next hlt =>
      refine Memory.wf_cons.2 ⟨fun e he => ?_, h⟩
      rcases List.mem_cons.1 he with rfl | he
      · exact hlt
      · exact Nat.lt_trans hlt (hk e he)
    · split
      · next heq => subst heq; exact Memory.wf_cons.2 ⟨hk, hm⟩
      · next hnlt hne =>
        refine Memory.wf_cons.2 ⟨fun e he => ?_, ih hm⟩
        rcases Memory.mem_write he with rfl | he
        · change k < a; omega
        · exact hk e he

theorem Memory.wf_bitWrite {m : Memory} (free : Nat → Byte) (j : Nat) (b : Bool) (h : m.wf = true) :
    (m.bitWrite free j b).wf = true := Memory.wf_write _ _ h

theorem Memory.wf_putBytes {m : Memory} (a : Nat) (bs : List Byte) (h : m.wf = true) :
    (m.putBytes a bs).wf = true := by
  induction bs generalizing m a with
  | nil => exact h
  | cons b bs ih => exact ih _ (Memory.wf_write _ _ h)

theorem Memory.wf_putBits {m : Memory} (free : Nat → Byte) (bs : BitString) (h : m.wf = true) :
    (m.putBits free bs).wf = true := by
  unfold Memory.putBits
  generalize List.range ((bs.length + 7) / 8) = ks
  induction ks generalizing m with
  | nil => exact h
  | cons k ks ih => exact ih (Memory.wf_write _ _ h)

/-! ## Sequences of bytes -/

/-- What `putBytes` does to every byte: the new ones from `a` on, all others as before. -/
theorem Memory.byteAt_putBytes (free : Nat → Byte) (m : Memory) (a : Nat) (bs : List Byte) (x : Nat) :
    (m.putBytes a bs).byteAt free x = if a ≤ x then bs[x - a]?.getD (m.byteAt free x) else m.byteAt free x := by
  induction bs generalizing m a with
  | nil => simp [Memory.putBytes]
  | cons b bs ih =>
    simp only [Memory.putBytes, ih, Memory.byteAt_write]
    rcases Nat.lt_trichotomy x a with h | h | h
    · rw [if_neg (by omega), if_neg (by omega), if_neg (by omega)]
    · subst h; rw [if_neg (by omega), if_pos rfl, if_pos (Nat.le_refl _)]; simp
    · rw [if_pos (by omega), if_neg (by omega), if_pos (by omega)]
      obtain ⟨d, rfl⟩ : ∃ d, x = a + 1 + d := ⟨x - (a + 1), by omega⟩
      have e1 : a + 1 + d - (a + 1) = d := by omega
      have e2 : a + 1 + d - a = d + 1 := by omega
      rw [e1, e2, List.getElem?_cons_succ]

/-! ## Bits of a byte -/

@[simp] theorem unpackByte_length (v : Byte) : (unpackByte v).length = 8 := by simp [unpackByte]

/-- Packing eight bits and reading bit `t`, first bit most significant, gives the `t`-th bit. -/
theorem getMsbD_packByte {bs : BitString} (h : bs.length = 8) (t : Nat) :
    (packByte bs).getMsbD t = bs[t]?.getD false := by
  by_cases ht : t < 8
  · match bs, h with
    | [a, b, c, d, e, f, g, i], _ =>
      have key : ∀ a b c d e f g i : Bool, ∀ t : Fin 8,
          (packByte [a, b, c, d, e, f, g, i]).getMsbD t = ([a, b, c, d, e, f, g, i][t.val]?).getD false := by
        decide
      exact key a b c d e f g i ⟨t, ht⟩
  · rw [List.getElem?_eq_none (by omega)]
    simp [BitVec.getMsbD, ht]

theorem getElem?_unpackByte (v : Byte) (t : Nat) (h : t < 8) : (unpackByte v)[t]? = some (v.getMsbD t) := by
  simp [unpackByte, h]

/-- What `overlayByte` does to bit `t`: the new bit where there is one, else the old one. -/
theorem getMsbD_overlayByte {bs : BitString} (old : Byte) (h : bs.length ≤ 8) {t : Nat} (ht : t < 8) :
    (overlayByte bs old).getMsbD t = bs[t]?.getD (old.getMsbD t) := by
  unfold overlayByte
  rw [getMsbD_packByte (by simp; omega)]
  by_cases hb : t < bs.length
  · simp [List.getElem?_append_left hb, List.getElem?_eq_getElem hb]
  · rw [List.getElem?_append_right (by omega), List.getElem?_drop, List.getElem?_eq_none (by omega : bs.length ≤ t)]
    rw [show bs.length + (t - bs.length) = t by omega, getElem?_unpackByte _ _ ht]
    simp

/-! ## Sequences of bits -/

/-- The bytes of `putBits` written so far: the first `k` of them. -/
theorem Memory.byteAt_putBits_range (free : Nat → Byte) (m : Memory) (bs : BitString) (k x : Nat) :
    ((List.range k).foldl
      (fun m k => m.write k (overlayByte ((bs.drop (8 * k)).take 8) (m.byteAt free k))) m).byteAt free x =
    if x < k then overlayByte ((bs.drop (8 * x)).take 8) (m.byteAt free x) else m.byteAt free x := by
  induction k with
  | zero => simp
  | succ k ih =>
    rw [List.range_succ, List.foldl_append, List.foldl_cons, List.foldl_nil]
    generalize hm : List.foldl _ m (List.range k) = m' at ih ⊢
    rw [Memory.byteAt_write]
    by_cases hx : k = x
    · subst hx
      rw [if_pos rfl, if_pos (Nat.lt_succ_self _), ih, if_neg (Nat.lt_irrefl _)]
    · rw [if_neg hx, ih]
      by_cases hlt : x < k
      · rw [if_pos hlt, if_pos (by omega)]
      · rw [if_neg hlt, if_neg (by omega)]

/-- What `putBits` does to every byte. -/
theorem Memory.byteAt_putBits (free : Nat → Byte) (m : Memory) (bs : BitString) (x : Nat) :
    (m.putBits free bs).byteAt free x =
    if x < (bs.length + 7) / 8 then overlayByte ((bs.drop (8 * x)).take 8) (m.byteAt free x) else m.byteAt free x :=
  Memory.byteAt_putBits_range free m bs _ x

/-- What `putBits` does to every bit: the new ones from 0 on, all others as before. -/
theorem Memory.bitAt_putBits (free : Nat → Byte) (m : Memory) (bs : BitString) (j : Nat) :
    (m.putBits free bs).bitAt free j = bs[j]?.getD (m.bitAt free j) := by
  have hj : 8 * (j / 8) + j % 8 = j := Nat.div_add_mod j 8
  have ht : j % 8 < 8 := Nat.mod_lt _ (by omega)
  unfold Memory.bitAt
  rw [Memory.byteAt_putBits]
  by_cases hx : j / 8 < (bs.length + 7) / 8
  · rw [if_pos hx, getMsbD_overlayByte _ (by simp) ht, List.getElem?_take_of_lt ht, List.getElem?_drop, hj]
  · rw [if_neg hx, List.getElem?_eq_none (by omega)]
    rfl

/-- What a `BitWrite` does to every bit (R68). -/
theorem Memory.bitAt_bitWrite (free : Nat → Byte) (m : Memory) (j : Nat) (b : Bool) (x : Nat) :
    (m.bitWrite free j b).bitAt free x = if j = x then b else m.bitAt free x := by
  have hx : x % 8 < 8 := Nat.mod_lt _ (by omega)
  unfold Memory.bitAt Memory.bitWrite
  rw [Memory.byteAt_write]
  by_cases hq : j / 8 = x / 8
  · rw [if_pos hq, getMsbD_packByte (by simp), hq, List.getElem?_set]
    by_cases hr : j % 8 = x % 8
    · have : j = x := by omega
      simp [this, hx]
    · have : j ≠ x := fun e => hr (e ▸ rfl)
      simp [hr, this, getElem?_unpackByte _ _ hx]
  · have : j ≠ x := fun e => hq (e ▸ rfl)
    simp [hq, this]

end Sys2Proof.Machine
end

