-- ==== Sys2Proof/Laws/PerInstr.lean ====
section
/-! SUPPORT. Statements for all commands, one lemma per constructor. Family `TableRow`: a command's word selects its own row of
spec/opcode_table.json (30_encoding.md R96: `w & mask = match`). -/

namespace Sys2Proof.Laws.TableRow

/-- The mask of a command's row (R96). -/
def mask : Instr → Word
  | .fcnt     => 0xFFFFFFFF#32
  | .tbld _   => 0xFFFFFFDF#32
  | .casn     => 0xFFFFFFFF#32
  | .benc     => 0xFFFFFFFF#32
  | .bdec _ _ => 0xFFFFFFCF#32
  | .clr      => 0xFFFFFFFF#32

/-- The match value of a command's row (R96). -/
def pattern : Instr → Word
  | .fcnt     => 0x00000001#32
  | .tbld _   => 0x00000002#32
  | .casn     => 0x00000003#32
  | .benc     => 0x00000004#32
  | .bdec _ _ => 0x00000005#32
  | .clr      => 0x00000006#32

/-- The command is well formed and its word selects its row. -/
def Statement (i : Instr) : Prop := i.wellFormed = true ∧ encode i &&& mask i = pattern i

theorem fcnt : Statement .fcnt := by unfold Statement; decide
theorem tbld (c : Bool) : Statement (.tbld c) := by unfold Statement; revert c; decide
theorem casn : Statement .casn := by unfold Statement; decide
theorem benc : Statement .benc := by unfold Statement; decide
theorem bdec (l c : Bool) : Statement (.bdec l c) := by unfold Statement; revert l c; decide
theorem clr : Statement .clr := by unfold Statement; decide

end Sys2Proof.Laws.TableRow
end

