-- ==== Sys2Proof/Laws/State.lean ====
section
/-! SUPPORT. One lemma per field per named update of State, all true by definition, so that no later proof unfolds an update. -/

namespace Sys2Proof.Machine.State

variable (s : State)

/-! ## raise -/

@[simp] theorem raise_textLen (r : Raise) : (s.raise r).textLen = s.textLen := rfl
@[simp] theorem raise_bitLen (r : Raise) : (s.raise r).bitLen = s.bitLen := rfl
@[simp] theorem raise_symCount (r : Raise) : (s.raise r).symCount = s.symCount := rfl
@[simp] theorem raise_treeValid (r : Raise) : (s.raise r).treeValid = s.treeValid := rfl
@[simp] theorem raise_codeValid (r : Raise) : (s.raise r).codeValid = s.codeValid := rfl
@[simp] theorem raise_empty (r : Raise) : (s.raise r).empty = false := rfl
@[simp] theorem raise_err (r : Raise) : (s.raise r).err = r.failure.code := rfl
@[simp] theorem raise_errInfo (r : Raise) : (s.raise r).errInfo = r.info := rfl
@[simp] theorem raise_nsym (r : Raise) : (s.raise r).nsym = s.nsym := rfl
@[simp] theorem raise_freq (r : Raise) : (s.raise r).freq = s.freq := rfl
@[simp] theorem raise_code (r : Raise) : (s.raise r).code = s.code := rfl
@[simp] theorem raise_text (r : Raise) : (s.raise r).text = s.text := rfl
@[simp] theorem raise_bits (r : Raise) : (s.raise r).bits = s.bits := rfl
@[simp] theorem raise_node (r : Raise) : (s.raise r).node = s.node := rfl
@[simp] theorem raise_pending (r : Raise) : (s.raise r).pending = s.pending := rfl
@[simp] theorem raise_response (r : Raise) : (s.raise r).response = s.response := rfl
@[simp] theorem raise_resets (r : Raise) : (s.raise r).resets = s.resets := rfl
@[simp] theorem raise_draws (r : Raise) : (s.raise r).draws = s.draws := rfl

/-! ## succeed -/

@[simp] theorem succeed_textLen (e : Bool) : (s.succeed e).textLen = s.textLen := rfl
@[simp] theorem succeed_bitLen (e : Bool) : (s.succeed e).bitLen = s.bitLen := rfl
@[simp] theorem succeed_symCount (e : Bool) : (s.succeed e).symCount = s.symCount := rfl
@[simp] theorem succeed_treeValid (e : Bool) : (s.succeed e).treeValid = s.treeValid := rfl
@[simp] theorem succeed_codeValid (e : Bool) : (s.succeed e).codeValid = s.codeValid := rfl
@[simp] theorem succeed_empty (e : Bool) : (s.succeed e).empty = e := rfl
@[simp] theorem succeed_err (e : Bool) : (s.succeed e).err = 0#8 := rfl
@[simp] theorem succeed_errInfo (e : Bool) : (s.succeed e).errInfo = 0#32 := rfl
@[simp] theorem succeed_nsym (e : Bool) : (s.succeed e).nsym = s.nsym := rfl
@[simp] theorem succeed_freq (e : Bool) : (s.succeed e).freq = s.freq := rfl
@[simp] theorem succeed_code (e : Bool) : (s.succeed e).code = s.code := rfl
@[simp] theorem succeed_text (e : Bool) : (s.succeed e).text = s.text := rfl
@[simp] theorem succeed_bits (e : Bool) : (s.succeed e).bits = s.bits := rfl
@[simp] theorem succeed_node (e : Bool) : (s.succeed e).node = s.node := rfl
@[simp] theorem succeed_pending (e : Bool) : (s.succeed e).pending = s.pending := rfl
@[simp] theorem succeed_response (e : Bool) : (s.succeed e).response = s.response := rfl
@[simp] theorem succeed_resets (e : Bool) : (s.succeed e).resets = s.resets := rfl
@[simp] theorem succeed_draws (e : Bool) : (s.succeed e).draws = s.draws := rfl

/-! ## respond -/

@[simp] theorem respond_textLen (r : HostResponse) : (s.respond r).textLen = s.textLen := rfl
@[simp] theorem respond_bitLen (r : HostResponse) : (s.respond r).bitLen = s.bitLen := rfl
@[simp] theorem respond_symCount (r : HostResponse) : (s.respond r).symCount = s.symCount := rfl
@[simp] theorem respond_treeValid (r : HostResponse) : (s.respond r).treeValid = s.treeValid := rfl
@[simp] theorem respond_codeValid (r : HostResponse) : (s.respond r).codeValid = s.codeValid := rfl
@[simp] theorem respond_empty (r : HostResponse) : (s.respond r).empty = s.empty := rfl
@[simp] theorem respond_err (r : HostResponse) : (s.respond r).err = s.err := rfl
@[simp] theorem respond_errInfo (r : HostResponse) : (s.respond r).errInfo = s.errInfo := rfl
@[simp] theorem respond_nsym (r : HostResponse) : (s.respond r).nsym = s.nsym := rfl
@[simp] theorem respond_freq (r : HostResponse) : (s.respond r).freq = s.freq := rfl
@[simp] theorem respond_code (r : HostResponse) : (s.respond r).code = s.code := rfl
@[simp] theorem respond_text (r : HostResponse) : (s.respond r).text = s.text := rfl
@[simp] theorem respond_bits (r : HostResponse) : (s.respond r).bits = s.bits := rfl
@[simp] theorem respond_node (r : HostResponse) : (s.respond r).node = s.node := rfl
@[simp] theorem respond_pending (r : HostResponse) : (s.respond r).pending = s.pending := rfl
@[simp] theorem respond_response (r : HostResponse) : (s.respond r).response = some r := rfl
@[simp] theorem respond_resets (r : HostResponse) : (s.respond r).resets = s.resets := rfl
@[simp] theorem respond_draws (r : HostResponse) : (s.respond r).draws = s.draws := rfl

/-! ## invalidate -/

@[simp] theorem invalidate_textLen : (s.invalidate).textLen = s.textLen := rfl
@[simp] theorem invalidate_bitLen : (s.invalidate).bitLen = s.bitLen := rfl
@[simp] theorem invalidate_symCount : (s.invalidate).symCount = s.symCount := rfl
@[simp] theorem invalidate_treeValid : (s.invalidate).treeValid = false := rfl
@[simp] theorem invalidate_codeValid : (s.invalidate).codeValid = false := rfl
@[simp] theorem invalidate_empty : (s.invalidate).empty = s.empty := rfl
@[simp] theorem invalidate_err : (s.invalidate).err = s.err := rfl
@[simp] theorem invalidate_errInfo : (s.invalidate).errInfo = s.errInfo := rfl
@[simp] theorem invalidate_nsym : (s.invalidate).nsym = s.nsym := rfl
@[simp] theorem invalidate_freq : (s.invalidate).freq = s.freq := rfl
@[simp] theorem invalidate_code : (s.invalidate).code = s.code := rfl
@[simp] theorem invalidate_text : (s.invalidate).text = s.text := rfl
@[simp] theorem invalidate_bits : (s.invalidate).bits = s.bits := rfl
@[simp] theorem invalidate_node : (s.invalidate).node = s.node := rfl
@[simp] theorem invalidate_pending : (s.invalidate).pending = s.pending := rfl
@[simp] theorem invalidate_response : (s.invalidate).response = s.response := rfl
@[simp] theorem invalidate_resets : (s.invalidate).resets = s.resets := rfl
@[simp] theorem invalidate_draws : (s.invalidate).draws = s.draws := rfl

/-! ## issueNext -/

@[simp] theorem issueNext_textLen (w : Word) : (s.issueNext w).textLen = s.textLen := rfl
@[simp] theorem issueNext_bitLen (w : Word) : (s.issueNext w).bitLen = s.bitLen := rfl
@[simp] theorem issueNext_symCount (w : Word) : (s.issueNext w).symCount = s.symCount := rfl
@[simp] theorem issueNext_treeValid (w : Word) : (s.issueNext w).treeValid = s.treeValid := rfl
@[simp] theorem issueNext_codeValid (w : Word) : (s.issueNext w).codeValid = s.codeValid := rfl
@[simp] theorem issueNext_empty (w : Word) : (s.issueNext w).empty = s.empty := rfl
@[simp] theorem issueNext_err (w : Word) : (s.issueNext w).err = s.err := rfl
@[simp] theorem issueNext_errInfo (w : Word) : (s.issueNext w).errInfo = s.errInfo := rfl
@[simp] theorem issueNext_nsym (w : Word) : (s.issueNext w).nsym = s.nsym := rfl
@[simp] theorem issueNext_freq (w : Word) : (s.issueNext w).freq = s.freq := rfl
@[simp] theorem issueNext_code (w : Word) : (s.issueNext w).code = s.code := rfl
@[simp] theorem issueNext_text (w : Word) : (s.issueNext w).text = s.text := rfl
@[simp] theorem issueNext_bits (w : Word) : (s.issueNext w).bits = s.bits := rfl
@[simp] theorem issueNext_node (w : Word) : (s.issueNext w).node = s.node := rfl
@[simp] theorem issueNext_pending (w : Word) : (s.issueNext w).pending = commandWrite w :: s.pending := rfl
@[simp] theorem issueNext_response (w : Word) : (s.issueNext w).response = s.response := rfl
@[simp] theorem issueNext_resets (w : Word) : (s.issueNext w).resets = s.resets := rfl
@[simp] theorem issueNext_draws (w : Word) : (s.issueNext w).draws = s.draws := rfl

end Sys2Proof.Machine.State
end

