-- ==== Sys2Proof/Laws/Step.lean ====
section
/-! SUPPORT. What a step can do, said once: every command and every step ends in a next state, and a step is one of eight kinds of
host event, each with its result. Later proofs cite these and do not unfold `step`. -/

namespace Sys2Proof.Machine

/-! ## Commands -/

/-- The next state a command ends in. -/
def afterCommand (i : Instr) (s : State) : State :=
  match i with
  | .fcnt     => fcnt s
  | .tbld c   => tbld c s
  | .casn     => casn s
  | .benc     => benc s
  | .bdec l c => bdec l c s
  | .clr      => clr s

/-- Every command ends in a next state (R14, R254). -/
theorem exec_eq (i : Instr) (s : State) : exec i s = .next (afterCommand i s) := by cases i <;> rfl

theorem exec_eq_next {i : Instr} {s t : State} (h : exec i s = .next t) : t = afterCommand i s := by
  rw [exec_eq] at h; injection h with h; exact h.symm

/-- The next state a command word ends in (R201). -/
def afterWord (w : Word) (s : State) : State :=
  match decode w with
  | .ok i => afterCommand i s
  | .error _ => illegalWord w s

theorem issueCommand_eq (w : Word) (s : State) : issueCommand w s = .next (afterWord w s) := by
  unfold issueCommand afterWord
  cases decode w with
  | ok i => exact exec_eq i s
  | error e => rfl

/-- The host agent's side of a state: what no command touches. -/
def State.hostSide (s : State) : List HostEvent × Option HostResponse × Nat × Nat :=
  (s.pending, s.response, s.resets, s.draws)

/-- `TBLD` ends in a failure of validation or with the rebuilt tree (R136). -/
theorem tbld_cases (c : Bool) (s : State) :
    (∃ r, validFreq s.freq c s.symCount = some r ∧ tbld c s = { s with treeValid := false }.raise r) ∨
    (validFreq s.freq c s.symCount = none ∧
      tbld c s = { s with node := (buildTree s.freq).1, nsym := BitVec.ofNat 9 (buildTree s.freq).2
                          treeValid := true }.succeed (emptyTree (buildTree s.freq).2)) := by
  unfold tbld
  cases h : validFreq s.freq c s.symCount with
  | some r => exact .inl ⟨r, rfl, by simp only [h]; rfl⟩
  | none => exact .inr ⟨rfl, by simp only [h]; rfl⟩

/-- `CASN` assigns the codes of the valid tree or fails with SequenceError (R150). -/
theorem casn_cases (s : State) :
    (s.treeValid = true ∧
      casn s = { s with code := assignCodes s.node s.nsym.toNat, codeValid := true
                        treeValid := false }.succeed (emptyTree s.nsym.toNat)) ∨
    (s.treeValid = false ∧ casn s = { s with codeValid := false }.raise ⟨.sequenceError, 0#32⟩) := by
  unfold casn
  cases h : s.treeValid with
  | true => exact .inl ⟨rfl, by simp only [if_true]; rfl⟩
  | false => exact .inr ⟨rfl, rfl⟩

/-- `BENC` on an empty text, without a code map, and by the outcome of its loop (R165). -/
theorem benc_cases (s : State) :
    (emptyText s = true ∧ benc s = { s with bitLen := 0#32 }.succeed true) ∨
    (emptyText s = false ∧ s.codeValid = false ∧ benc s = { s with bitLen := 0#32 }.raise ⟨.sequenceError, 0#32⟩) ∨
    (emptyText s = false ∧ s.codeValid = true ∧ ∃ out f, encodeLoop s.code 0 0 s.textOperand = (out, some f) ∧
      benc s = { s with bitLen := 0#32, bits := s.bits.putBits (Config.unwrittenBits s.resets) out }.raise f) ∨
    (emptyText s = false ∧ s.codeValid = true ∧ ∃ out, encodeLoop s.code 0 0 s.textOperand = (out, none) ∧
      benc s = { s with bits := s.bits.putBits (Config.unwrittenBits s.resets) (out ++ padding out.length)
                        bitLen := BitVec.ofNat 32 out.length }.succeed false) := by
  unfold benc
  have hE : emptyText { s with bitLen := 0#32, empty := false } = emptyText s := rfl
  have hT : State.textOperand { s with bitLen := 0#32, empty := false } = s.textOperand := rfl
  simp only [hE, hT]
  cases h : emptyText s with
  | true => exact .inl ⟨rfl, rfl⟩
  | false =>
    refine .inr ?_
    cases hc : s.codeValid with
    | false => exact .inl ⟨rfl, rfl, rfl⟩
    | true =>
      refine .inr ?_
      cases hr : encodeLoop s.code 0 0 s.textOperand with
      | mk out r =>
        cases r with
        | some f => exact .inl ⟨rfl, rfl, out, f, rfl, rfl⟩
        | none => exact .inr ⟨rfl, rfl, out, rfl, rfl⟩

/-- `BDEC` ends in a failure of validation, in a failure of the walk, or with the decoded text (R180). -/
theorem bdec_cases (l c : Bool) (s : State) :
    (∃ r, validFreq s.freq c s.symCount = some r ∧ bdec l c s = { s with treeValid := false, textLen := 0#32 }.raise r) ∨
    (validFreq s.freq c s.symCount = none ∧ ∃ out o,
      decodeBits s.bitsOperand (buildTree s.freq).1 (buildTree s.freq).2 l = (out, o) ∧
      ((∃ r, o = some r ∧ bdec l c s =
        { s with treeValid := false, textLen := 0#32, node := (buildTree s.freq).1
                 nsym := BitVec.ofNat 9 (buildTree s.freq).2, text := s.text.putBytes 0 out }.raise r) ∨
       (o = none ∧ bdec l c s =
        { s with treeValid := false, textLen := BitVec.ofNat 32 out.length, node := (buildTree s.freq).1
                 nsym := BitVec.ofNat 9 (buildTree s.freq).2
                 text := s.text.putBytes 0 out }.succeed (emptyTree (buildTree s.freq).2)))) := by
  unfold bdec
  have hB : State.bitsOperand { s with treeValid := false, empty := false, textLen := 0#32 } = s.bitsOperand := rfl
  simp only [hB]
  cases h : validFreq s.freq c s.symCount with
  | some r => exact .inl ⟨r, rfl, rfl⟩
  | none =>
    refine .inr ⟨rfl, ?_⟩
    cases hd : decodeBits s.bitsOperand (buildTree s.freq).1 (buildTree s.freq).2 l with
    | mk out o =>
      cases o with
      | some r => exact ⟨out, some r, rfl, .inl ⟨r, rfl, rfl⟩⟩
      | none => exact ⟨out, none, rfl, .inr ⟨rfl, rfl⟩⟩

/-- No command touches the host agent's side. -/
theorem afterCommand_hostSide (i : Instr) (s : State) : (afterCommand i s).hostSide = s.hostSide := by
  cases i with
  | fcnt => rfl
  | tbld c =>
    obtain ⟨r, -, h⟩ | ⟨-, h⟩ := tbld_cases c s <;> simp only [afterCommand, h] <;> rfl
  | casn => obtain ⟨-, h⟩ | ⟨-, h⟩ := casn_cases s <;> simp only [afterCommand, h] <;> rfl
  | benc =>
    obtain ⟨-, h⟩ | ⟨-, -, h⟩ | ⟨-, -, out, f, -, h⟩ | ⟨-, -, out, -, h⟩ := benc_cases s <;>
      simp only [afterCommand, h] <;> rfl
  | bdec l c =>
    obtain ⟨r, -, h⟩ | ⟨-, out, o, -, ⟨r, -, h⟩ | ⟨-, h⟩⟩ := bdec_cases l c s <;> simp only [afterCommand, h] <;> rfl
  | clr => rfl

/-! ## Host events -/

/-- What a host event does: a read ok or in `herr`; a write to `CMD`, to another element, or in `herr`; a reset. -/
theorem perform_cases (e : HostEvent) (s : State) :
    (∃ addr size x, e = .read addr size ∧ readTarget addr size = .ok x ∧
      perform e s = .next (s.respond (.data (readValue s x)))) ∨
    (∃ addr size r, e = .read addr size ∧ readTarget addr size = .error r ∧
      perform e s = .next ({ s with draws := s.draws + 1 }.respond (.herr (some (Config.herrData s.draws))))) ∨
    (∃ addr size w, e = .write addr size w ∧ writeTarget addr size w = .ok .cmd ∧
      perform e s = .next ((afterWord w s).respond .wrote)) ∨
    (∃ addr size w x, e = .write addr size w ∧ writeTarget addr size w = .ok x ∧ x ≠ .cmd ∧
      perform e s = .next ((storeTarget s w x).respond .wrote)) ∨
    (∃ addr size w r, e = .write addr size w ∧ writeTarget addr size w = .error r ∧
      perform e s = .next (s.respond (.herr none))) ∨
    (e = .reset ∧ perform e s = .next (resetPulse s)) := by
  cases e with
  | read addr size =>
    cases h : readTarget addr size with
    | ok x => exact .inl ⟨addr, size, x, rfl, h, by simp only [perform, hostRead, h]⟩
    | error r => exact .inr (.inl ⟨addr, size, r, rfl, h, by simp only [perform, hostRead, h]⟩)
  | write addr size w =>
    refine .inr (.inr ?_)
    cases h : writeTarget addr size w with
    | error r => exact .inr (.inr (.inl ⟨addr, size, w, r, rfl, h, by simp only [perform, hostWrite, h]⟩))
    | ok x =>
      by_cases hx : x = .cmd
      · subst hx
        exact .inl ⟨addr, size, w, rfl, h, by simp only [perform, hostWrite, h, issueCommand_eq, respondTo]⟩
      · refine .inr (.inl ⟨addr, size, w, x, rfl, h, hx, ?_⟩)
        cases x <;> first | exact absurd rfl hx | simp only [perform, hostWrite, h]
  | reset => exact .inr (.inr (.inr (.inr (.inr ⟨rfl, rfl⟩))))

/-- What a step does: nothing when no event is pending (R253), else the first pending event. -/
theorem step_cases (s : State) :
    (s.pending = [] ∧ step s = .next s) ∨
    (∃ e rest, s.pending = e :: rest ∧ step s = perform e { s with pending := rest }) := by
  unfold step stepPending
  cases h : s.pending with
  | nil => exact .inl ⟨rfl, rfl⟩
  | cons e rest => exact .inr ⟨e, rest, rfl, rfl⟩

/-- Every step ends in a next state (R14, R254). -/
theorem step_next (s : State) : ∃ t, step s = .next t := by
  obtain ⟨-, h⟩ | ⟨e, rest, -, h⟩ := step_cases s
  · exact ⟨_, h⟩
  · obtain ⟨_, _, _, -, -, h'⟩ | ⟨_, _, _, -, -, h'⟩ | ⟨_, _, _, -, -, h'⟩ | ⟨_, _, _, _, -, -, -, h'⟩ |
      ⟨_, _, _, _, -, -, h'⟩ | ⟨-, h'⟩ := perform_cases e { s with pending := rest } <;> exact ⟨_, h.trans h'⟩

end Sys2Proof.Machine
end

