-- ==== Sys2Proof/Laws/Table.lean ====
section
/-! SUPPORT. The 256-entry tables: read after write, and the image table. -/

namespace Sys2Proof.Machine

variable {α β : Type}

@[simp] theorem tableGet_set_same (v : Vector α 256) (s : Byte) (x : α) : tableGet (tableSet v s x) s = x := by
  simp [tableGet, tableSet]

theorem tableGet_set (v : Vector α 256) (s t : Byte) (x : α) :
    tableGet (tableSet v s x) t = if s = t then x else tableGet v t := by
  by_cases h : s = t
  · subst h; simp
  · have h' : s.toNat ≠ t.toNat := fun e => h (BitVec.eq_of_toNat_eq e)
    simp [tableGet, tableSet, h, h']

theorem tableGet_set_other (v : Vector α 256) {s t : Byte} (x : α) (h : s ≠ t) :
    tableGet (tableSet v s x) t = tableGet v t := by
  simp [tableGet_set, h]

@[simp] theorem tableGet_replicate (x : α) (s : Byte) : tableGet (Vector.replicate 256 x) s = x := by
  simp [tableGet]

@[simp] theorem tableGet_map (f : α → β) (v : Vector α 256) (s : Byte) :
    tableGet (tableMap f v) s = f (tableGet v s) := by
  simp [tableGet, tableMap]

/-- Two tables with the same entries are the same table. -/
theorem table_ext {v w : Vector α 256} (h : ∀ s : Byte, tableGet v s = tableGet w s) : v = w := by
  ext i hi
  have := h (BitVec.ofNat 8 i)
  have hm : i % 256 = i := Nat.mod_eq_of_lt hi
  simpa [tableGet, hm] using this

/-- An entry as an element of the table's list, at the symbol's number. -/
theorem tableGet_eq_toList (v : Vector α 256) (s : Byte) :
    v.toList[s.toNat]'(by rw [Vector.length_toList]; exact s.isLt) = tableGet v s := by
  simp [tableGet]

end Sys2Proof.Machine
end

