-- ==== Sys2Proof/Machine/ScriptText.lean ====
section
/-! DEFINITION. The concrete text of a host script (30_encoding.md R105 to R112): comments, numbers, character indices, targets,
mnemonics, and the lines. Spacing and the exact shape of the operand lists are log 12. -/

namespace Sys2Proof.Machine

/-- The spelling of a command (R107): the flag letters after the dot, `L` before `C`. -/
def mnemonicOf : Instr → String
  | .fcnt             => "FCNT"
  | .tbld false       => "TBLD"
  | .tbld true        => "TBLD.C"
  | .casn             => "CASN"
  | .benc             => "BENC"
  | .bdec false false => "BDEC"
  | .bdec true false  => "BDEC.L"
  | .bdec false true  => "BDEC.C"
  | .bdec true true   => "BDEC.LC"
  | .clr              => "CLR"

/-- The commands, one for each legal word of R96. -/
def allCommands : List Instr :=
  [.fcnt, .tbld false, .tbld true, .casn, .benc,
   .bdec false false, .bdec true false, .bdec false true, .bdec true true, .clr]

/-- The command a spelling stands for; no other spelling is accepted (R107). -/
def commandOfMnemonic (m : String) : Option Instr := allCommands.find? (fun i => mnemonicOf i == m)

/-- The pieces of a line: a name, a number, a character or string in quotes, any other sign. -/
inductive Token where
  | name (n : String) | num (n : Nat) | chr (c : Char) | str (cs : List Char) | sign (c : Char)
  deriving DecidableEq, Repr

/-- The part of a line before a comment (R105). -/
def stripComment (cs : List Char) : List Char := cs.takeWhile (· ≠ ';')

/-- The value of a digit in base 10 or 16. -/
def digitValue (c : Char) : Option Nat :=
  if '0' ≤ c ∧ c ≤ '9' then some (c.toNat - 48)
  else if 'a' ≤ c ∧ c ≤ 'f' then some (c.toNat - 87)
  else if 'A' ≤ c ∧ c ≤ 'F' then some (c.toNat - 55)
  else none

/-- Digits in a base, most significant first. -/
def numeral (base : Nat) : Nat → List Char → Option Nat
  | acc, [] => some acc
  | acc, c :: cs =>
    match digitValue c with
    | some d => if d < base then numeral base (base * acc + d) cs else none
    | none => none

/-- A number, decimal or `0x` hexadecimal (R105). -/
def parseNumber : List Char → Option Nat
  | '0' :: 'x' :: c :: cs => numeral 16 0 (c :: cs)
  | c :: cs => numeral 10 0 (c :: cs)
  | [] => none

/-- Characters of names and numbers; the dot stands before a flag suffix (R107). -/
def isWordChar (c : Char) : Bool := c.isAlphanum || c == '_' || c == '.'

/-- A word as a token: a number when it begins with a digit, else a name. -/
def wordToken (w : List Char) : Option Token :=
  match w with
  | [] => none
  | c :: _ => if c.isDigit then (parseNumber w).map .num else some (.name (String.ofList w))

/-- The double quote and the single quote. -/
def doubleQuote : Char := Char.ofNat 34
def singleQuote : Char := Char.ofNat 39

/-- The tokens of a line. The fuel is the number of characters, and each token takes at least one. -/
def tokenize : Nat → List Char → Option (List Token)
  | _, [] => some []
  | 0, _ :: _ => none
  | fuel + 1, c :: cs =>
    if c.isWhitespace then tokenize fuel cs
    else if c == doubleQuote then
      let body := cs.takeWhile (· ≠ doubleQuote)
      match cs.drop body.length with
      | [] => none
      | _ :: rest => (tokenize fuel rest).map (.str body :: ·)
    else if c == singleQuote then
      match cs with
      | x :: q :: rest => if q == singleQuote then (tokenize fuel rest).map (.chr x :: ·) else none
      | _ => none
    else if isWordChar c then
      let w := (c :: cs).takeWhile isWordChar
      match wordToken w, tokenize fuel ((c :: cs).drop w.length) with
      | some t, some ts => some (t :: ts)
      | _, _ => none
    else (tokenize fuel cs).map (.sign c :: ·)

/-- A symbol index: a number or a character in single quotes, meaning its byte value (R106). -/
def symbolOf : Token → Option Byte
  | .num n => if n < 256 then some (BitVec.ofNat 8 n) else none
  | .chr c => if c.toNat < 256 then some (BitVec.ofNat 8 c.toNat) else none
  | _ => none

/-- The targets without an index (R106). -/
def registerOfName (n : String) : Option Target :=
  [("CMD", .cmd), ("STATUS", .status), ("ERRINFO", .errInfo), ("TEXT_LEN", .textLen), ("BIT_LEN", .bitLen),
   ("SYM_COUNT", .symCount), ("NSYM", .nsym), ("TEXTCAP", .textCap), ("BITCAP", .bitCap)].lookup n

/-- A buffer index. -/
def bufferIndex (n : Nat) : Option (BitVec 16) := if n < 65536 then some (BitVec.ofNat 16 n) else none

/-- A target at the head of a token list, and the rest (R106). -/
def parseTarget : List Token → Option (Target × List Token)
  | .name n :: .sign '[' :: x :: .sign ']' :: .sign '[' :: .num w :: .sign ']' :: rest =>
    if n = "CODEBITS" ∧ w < 8 then (symbolOf x).map (fun s => (.codeBits s (BitVec.ofNat 3 w), rest)) else none
  | .name n :: .sign '[' :: x :: .sign ']' :: rest =>
    if n = "FREQ" then (symbolOf x).map (fun s => (.freq s, rest))
    else if n = "CODELEN" then (symbolOf x).map (fun s => (.codeLen s, rest))
    else match x with
      | .num k =>
        if n = "TEXT" then (bufferIndex k).map (fun i => (.text i, rest))
        else if n = "BITSB" then (bufferIndex k).map (fun i => (.bitsb i, rest))
        else none
      | _ => none
  | .name n :: rest => (registerOfName n).map (fun t => (t, rest))
  | _ => none

/-- The largest value a target's width holds, plus one. -/
def valueBound (t : Target) : Nat :=
  match accessSizeOf t with
  | .byte => 256
  | .word => 2 ^ 32

/-- A value for a target: it fits the width (R63: `v` an `n`-byte value). -/
def valueFor (t : Target) (n : Nat) : Option Word := if n < valueBound t then some (BitVec.ofNat 32 n) else none

/-- `<target> <sign> <value>` to the end of the line. -/
def parseTargetValue (sep : Char) (ts : List Token) : Option (Target × Word) :=
  match parseTarget ts with
  | some (t, [.sign c, .num n]) => if c = sep then (valueFor t n).map (fun v => (t, v)) else none
  | _ => none

/-- The bytes of a `text` line (R108): a string, or byte values. -/
def parseBytes : List Token → Option (List Byte)
  | [.str cs] => cs.mapM (fun c => symbolOf (.chr c))
  | ts => ts.mapM symbolOf

/-- The bits of a `bits` line (R109). -/
def parseBitChars (cs : List Char) : Option BitString :=
  cs.mapM (fun c => if c = '0' then some false else if c = '1' then some true else none)

/-- The entries of a `freq` line (R110): `<s>:<v>`. DESIGN CHOICE (log 12): a `freq` line without an entry is accepted and loads the
all-zero table; R110 is silent on none. -/
def parseEntries : List Token → Option (List (Byte × Word))
  | [] => some []
  | x :: .sign ':' :: .num v :: rest =>
    match symbolOf x, parseEntries rest with
    | some s, some es => if v < 2 ^ 32 then some ((s, BitVec.ofNat 32 v) :: es) else none
    | _, _ => none
  | _ => none

/-- A line of tokens (R105, R108 to R112); a length above the buffer's capacity is no line. The fuel bounds the nesting of
`expect herr:`. -/
def parseTokens : Nat → List Token → Option Line
  | 0, _ => none
  | fuel + 1, ts =>
    match ts with
    | [.name "ENCODE"] => some .encode
    | [.name "DECODE"] => some (.decode false)
    | [.name "DECODE.L"] => some (.decode true)
    | [.name "cmd", .name m] => (commandOfMnemonic m).map .cmd
    | .name "wr" :: rest => (parseTargetValue ',' rest).map (fun p => .wr p.1 p.2)
    | .name "rd" :: rest =>
      match parseTarget rest with
      | some (t, []) => some (.rd t none)
      | some (t, [.sign '-', .sign '>', .num n]) => (valueFor t n).map (fun v => .rd t (some v))
      | _ => none
    | .name "text" :: rest =>
      match parseBytes rest with
      | some T => if T.length ≤ Config.textCap then some (.text T) else none
      | none => none
    | [.name "bits", .str cs] =>
      match parseBitChars cs with
      | some B => if B.length ≤ Config.bitCap then some (.bits B) else none
      | none => none
    | .name "freq" :: rest => (parseEntries rest).map .freq
    | .name "expect" :: .name "herr" :: .sign ':' :: rest => (parseTokens fuel rest).map .expectHerr
    | .name "expect" :: rest => (parseTargetValue '=' rest).map (fun p => .expect p.1 p.2)
    | _ => none

/-- One line of a script; an empty or comment line is no line (outer `some`, inner `none`). -/
def parseLine (l : String) : Option (Option Line) :=
  let cs := stripComment l.toList
  match tokenize cs.length cs with
  | some [] => some none
  | some ts => (parseTokens (ts.length + 1) ts).map some
  | none => none

/-- A script, line by line (R105); `none` where a line is not of the language. -/
def parseScript : List String → Option (List Line)
  | [] => some []
  | l :: ls =>
    match parseLine l, parseScript ls with
    | some none, some rest => some rest
    | some (some x), some rest => some (x :: rest)
    | _, _ => none

end Sys2Proof.Machine
end

