-- ==== Sys2Proof/Tests/Slice0.lean ====
section
/-! SUPPORT. Tests and witnesses. Expected values are the vectors of spec/95_test_vectors.md or written out from the encoding
rules; each says which. A witness shows a state and operands that meet the hypotheses of the statement it is named after. -/

set_option Elab.async false

namespace Sys2Proof.Tests

open Sys2Proof Sys2Proof.Machine

/-! ## Helpers: a table, a text and a state -/

/-- The table with the listed nonzero entries. -/
def table (entries : List (Byte × Word)) : Vector Word 256 :=
  entries.foldl (fun F e => tableSet F e.1 e.2) (Vector.replicate 256 0#32)

/-- The table of "abracadabra" (95 section 1.1). -/
def abraTable : Vector Word 256 := table [(0x61#8, 5#32), (0x62#8, 2#32), (0x63#8, 1#32), (0x64#8, 1#32), (0x72#8, 2#32)]

/-- The codes of "abracadabra" (95 section 1.1). -/
def abraCodes : Vector BitString 256 :=
  tableSet (tableSet (tableSet (tableSet (tableSet (Vector.replicate 256 []) 0x61#8 [false])
    0x62#8 [true, true, false]) 0x63#8 [true, false, false]) 0x64#8 [true, false, true]) 0x72#8 [true, true, true]

/-- The 23 bits of "abracadabra" (95 vector E10). -/
def abraBits : BitString :=
  [false, true, true, false, true, true, true, false, true, false, false, false, true, false, true, false,
   true, true, false, true, true, true, false]

/-- The bytes of "abracadabra". -/
def abra : List Byte :=
  [0x61#8, 0x62#8, 0x72#8, 0x61#8, 0x63#8, 0x61#8, 0x64#8, 0x61#8, 0x62#8, 0x72#8, 0x61#8]

/-- The reset state with a text loaded. -/
def withText (T : List Byte) : State :=
  { State.reset with text := T.zipIdx.map (fun (b, i) => (i, b)), textLen := BitVec.ofNat 32 T.length }

/-- The reset state with a table and packed bits loaded. -/
def withBits (F : Vector Word 256) (bytes : List Byte) (n : Word) : State :=
  { State.reset with freq := F, bits := bytes.zipIdx.map (fun (b, i) => (i, b)), bitLen := n }

/-- The state after a `TBLD` of a table (R136). -/
def withTree (F : Vector Word 256) : State :=
  { State.reset with freq := F, node := (buildTree F).1, nsym := BitVec.ofNat 9 (buildTree F).2, treeValid := true }

/-- A text with the codes of "abracadabra". -/
def withCodes (T : List Byte) : State := { withText T with code := abraCodes, codeValid := true }

/-! ## WellFormed: one ill-formed term for each check -/

theorem test_reserved_bits_refused : (CommandFields.wellFormed ⟨1#4, false, false, 1#26⟩) = false := by decide
theorem test_op_0_refused : (CommandFields.wellFormed ⟨0#4, false, false, 0#26⟩) = false := by decide
theorem test_op_7_refused : (CommandFields.wellFormed ⟨7#4, false, false, 0#26⟩) = false := by decide
theorem test_flag_L_refused : (CommandFields.wellFormed ⟨2#4, true, false, 0#26⟩) = false := by decide
theorem test_flag_C_refused : (CommandFields.wellFormed ⟨4#4, false, true, 0#26⟩) = false := by decide
theorem test_byte_data_refused : (HostEvent.write 0x10000#18 .byte 0x100#32).wellFormed = false := by decide
theorem test_bdec_fields_accepted : (CommandFields.wellFormed ⟨5#4, true, true, 0#26⟩) = true := by decide

/-! ## Decode: words written out bit by bit, RSV C L OP (R90, R91) -/

theorem test_decode_fcnt : decode (0b00000000000000000000000000_0_0_0001 : BitVec 32) = .ok .fcnt := by decide
theorem test_decode_tbld : decode (0b00000000000000000000000000_0_0_0010 : BitVec 32) = .ok (.tbld false) := by decide
theorem test_decode_tbld_C : decode (0b00000000000000000000000000_1_0_0010 : BitVec 32) = .ok (.tbld true) := by decide
theorem test_decode_casn : decode (0b00000000000000000000000000_0_0_0011 : BitVec 32) = .ok .casn := by decide
theorem test_decode_benc : decode (0b00000000000000000000000000_0_0_0100 : BitVec 32) = .ok .benc := by decide
theorem test_decode_bdec : decode (0b00000000000000000000000000_0_0_0101 : BitVec 32) = .ok (.bdec false false) := by decide
theorem test_decode_bdec_L : decode (0b00000000000000000000000000_0_1_0101 : BitVec 32) = .ok (.bdec true false) := by decide
theorem test_decode_bdec_C : decode (0b00000000000000000000000000_1_0_0101 : BitVec 32) = .ok (.bdec false true) := by decide
theorem test_decode_bdec_LC : decode (0b00000000000000000000000000_1_1_0101 : BitVec 32) = .ok (.bdec true true) := by decide
theorem test_decode_clr : decode (0b00000000000000000000000000_0_0_0110 : BitVec 32) = .ok .clr := by decide
-- 95 vectors X7, X8: bits 6 and 31 are reserved
theorem test_decode_bit_6 : decode 0x45#32 = .error .reservedBits := by decide
theorem test_decode_bit_31 : decode 0x80000001#32 = .error .reservedBits := by decide
theorem test_encode_bdec_LC : encode (.bdec true true) = 0x35#32 := by decide
theorem test_table_word : decodeTableWord 32 0x22 = some (.tbld true) := by decide
theorem test_table_word_too_long : decodeTableWord 40 0x100000001 = none := by decide

/-! ## Commands, against the vectors of section 2 -/

-- F4: 00 FF 00
theorem test_fcnt_counts : tableGet (fcnt (withText [0#8, 0xFF#8, 0#8])).freq 0#8 = 2#32 := by decide +kernel
-- F8: old contents never survive
theorem test_fcnt_overwrites :
    tableGet (fcnt { withText [0x61#8, 0x62#8] with freq := table [(0x7A#8, 9#32)] }).freq 0x7A#8 = 0#32 := by decide +kernel
-- T11 "mississippi": the merges (1,2)->4 w3; (4,0)->5 w7; (3,5)->6 w11
theorem test_tbld_merges :
    ((tbld false { State.reset with freq := table [(0x69#8, 4#32), (0x6D#8, 1#32), (0x70#8, 2#32), (0x73#8, 4#32)] }).node.drop 4) =
      [⟨false, 0#8, 3#40, 1#9, 2#9⟩, ⟨false, 0#8, 7#40, 4#9, 0#9⟩, ⟨false, 0#8, 11#40, 3#9, 5#9⟩] := by decide +kernel
-- T27: the sign test comes before the total
theorem test_tbld_sign_first :
    (tbld true { State.reset with freq := table [(0x42#8, 0x80000000#32)], symCount := 0x80000000#32 }).errInfo = 0x42#32 := by
  decide +kernel
-- 1.1: the codes of "abracadabra"
theorem test_casn_codes : (casn (withTree abraTable)).code.toList = abraCodes.toList := by decide +kernel
-- T1: no symbol, STATUS 0x00000006
theorem test_casn_empty : (casn (withTree (table []))).statusWord = 0x6#32 := by decide +kernel
-- E10: 6E 8A DC, from buffer bytes that were never written
theorem test_benc_bytes : (benc (withCodes abra)).bits = [(0, 0x6E#8), (1, 0x8A#8), (2, 0xDC#8)] := by decide +kernel
-- E21: UnknownSymbol at 2, no padding: FF becomes 6F
theorem test_benc_unknown :
    let t := benc { withCodes [0x61#8, 0x62#8, 0x7A#8] with bits := [(0, 0xFF#8)] }
    (t.statusWord, t.errInfo, t.bits) = (0x102#32, 2#32, [(0, 0x6F#8)]) := by decide +kernel
-- D5: 21 bits, strict
theorem test_bdec_strict_leftover :
    let t := bdec false false (withBits abraTable [0x6E#8, 0x8A#8, 0xDC#8] 21#32)
    (t.statusWord, t.errInfo, t.textLen) = (0x200#32, 19#32, 0#32) := by decide +kernel
-- D4: the padding bit counted gives a spurious 'a'
theorem test_bdec_padding_bit :
    (bdec true false (withBits abraTable [0x6E#8, 0x8A#8, 0xDC#8] 24#32)).textOperand = abra ++ [0x61#8] := by decide +kernel
-- X1
theorem test_clr_status : (clr (withCodes abra)).statusWord = 0#32 := by decide +kernel

/-! ## Host port and step, against section 2.7 and the script rules -/

/-- The response to one host event. -/
def answer (e : HostEvent) (s : State) : Option HostResponse :=
  match perform e s with
  | .next t => t.response
  | .fault _ => none
  | .refused _ => none

-- H2
theorem test_read_textcap : answer (.read 0x1C#18 .word) State.reset = some (.data 0x10000#32) := by decide +kernel
-- H19: CODEBITS[255][7]
theorem test_read_last_codebits : answer (.read 0x3FFC#18 .word) State.reset = some (.data 0#32) := by decide +kernel
-- P1 line 30: CODEBITS['b'][0]
theorem test_read_codebits : answer (.read 0x2C40#18 .word) (withCodes abra) = some (.data 0xC0000000#32) := by decide +kernel
-- H5, H8
theorem test_status_read_only : answer (.write 0x4#18 .word 0#32) State.reset = some (.herr none) := by decide +kernel
theorem test_byte_write_to_freq : answer (.write 0x400#18 .byte 5#32) State.reset = some (.herr none) := by decide +kernel
-- H13
theorem test_text_len_limit : answer (.write 0xC#18 .word 0x10001#32) State.reset = some (.herr none) := by decide +kernel
-- X2 through the step: STATUS 0x600
theorem test_step_illegal_word :
    (match step (State.reset.withFetchWord 32 0) with | .next t => t.statusWord | _ => 0#32) = 0x600#32 := by decide +kernel
-- R105, R106, R107: script text
theorem test_parse_wr : parseLine "wr FREQ['z'], 0x10 ; a comment" = some (some (.wr (.freq 0x7A#8) 0x10#32)) := by
  decide +kernel
theorem test_parse_cmd : parseLine "cmd BDEC.LC" = some (some (.cmd (.bdec true true))) := by decide +kernel
theorem test_parse_refuses_CL : parseLine "cmd BDEC.CL" = none := by decide +kernel
theorem test_parse_expect_herr : parseLine "expect herr: rd CMD" = some (some (.expectHerr (.rd .cmd none))) := by
  decide +kernel
theorem test_parse_bits : parseLine "bits \"0110\"" = some (some (.bits [false, true, true, false])) := by decide +kernel

/-! ## Witnesses -/

theorem emptyTable_zero (b : Byte) : tableGet (table []) b = 0#32 := Vector.getElem_replicate ..

/-- Every table whose listed entries are legal is legal. -/
theorem table_legal (entries : List (Byte × Word)) (h : ∀ e ∈ entries, e.2.msb = false) : legalTable (table entries) := by
  have key : ∀ F, legalTable F → legalTable (entries.foldl (fun F e => tableSet F e.1 e.2) F) := by
    induction entries with
    | nil => exact fun _ hF => hF
    | cons e es ih =>
      intro F hF
      refine ih (fun x hx => h x (.tail _ hx)) _ fun s => ?_
      by_cases hs : s = e.1
      · subst hs; rw [tableGet_set_same]; exact h e (.head _)
      · rw [tableGet_set_other _ _ (Ne.symm hs)]; exact hF s
  exact key _ fun b => by rw [tableGet_replicate]; rfl

theorem abraTable_legal : legalTable abraTable := by
  unfold abraTable
  apply table_legal
  simp
  decide
theorem emptyTable_legal : legalTable (table []) := by
  apply table_legal
  simp
theorem singleTable_legal : legalTable (table [(0x61#8, 0x7FFFFFFF#32)]) := by
  apply table_legal
  simp
  decide
theorem abraTable_symbols : freqSymbols abraTable = 5 := by decide +kernel
theorem singleTable_symbols : freqSymbols (table [(0x61#8, 0x7FFFFFFF#32)]) = 1 := by decide +kernel
theorem emptyTable_symbols : freqSymbols (table []) = 0 := by decide +kernel

/-- Each of the four causes of R97, with the reserved operation codes at both ends. -/
theorem witness_IllegalWordOnlyRecordsIllegalCommand :
    (0x40#32).extractLsb' 6 26 ≠ 0#26 ∧ (0x80000000#32).extractLsb' 6 26 ≠ 0#26 ∧ (0#32).extractLsb' 0 4 = 0#4 ∧
    7 ≤ ((7#32).extractLsb' 0 4).toNat ∧ 7 ≤ ((15#32).extractLsb' 0 4).toNat ∧
    ((0x16#32).getLsbD 4 = true ∧ (0x16#32).extractLsb' 0 4 ≠ 5#4) ∧
    ((0x24#32).getLsbD 5 = true ∧ (0x24#32).extractLsb' 0 4 ≠ 2#4 ∧ (0x24#32).extractLsb' 0 4 ≠ 5#4) ∧
    (State.reset.issueNext 0x40#32).pending = [commandWrite 0x40#32] := by decide
theorem witness_StepRunsTheIssuedCommand :
    (State.reset.issueNext 0x22#32).pending = [commandWrite 0x22#32] ∧ decode 0x22#32 = .ok (.tbld true) ∧
    ∃ t, exec (.tbld true) State.reset = .next t := ⟨rfl, by decide, _, rfl⟩
theorem witness_IdleBlockHoldsItsState : State.reset.pending = [] := rfl
theorem witness_ResetPulseGivesTheResetState : ({ withCodes abra with pending := [.reset] }).pending = [.reset] := rfl
/-- TEXT_LEN at its largest legal value. -/
theorem witness_FcntStatements : ({ State.reset with textLen := 65536#32 }).textLen.toNat ≤ Config.textCap ∧
    ∃ t, exec .fcnt { State.reset with textLen := 65536#32 } = .next t := ⟨by decide, _, rfl⟩
theorem witness_TbldBuildsTheTree : legalTable abraTable ∧ totalOk true abraTable 11#32 :=
  ⟨abraTable_legal, fun _ => by decide +kernel⟩
theorem witness_LeavesAreThePresentSymbolsAscending : (0 : Nat) < 4 ∧ 4 < freqSymbols abraTable ∧
    tableGet abraTable 0x72#8 ≠ 0#32 := by decide +kernel
theorem witness_MergeLoopExtractsTheLeastTwo :
    [0, 1, 2, 3, 4].Nodup ∧ extractMin (leaves abraTable) [0, 1, 2, 3, 4] = some (2, [0, 1, 3, 4]) := by decide +kernel
/-- K = 0, K = 1 and K >= 2. -/
theorem witness_ArenaIsAStrictBinaryTree :
    (legalTable (table []) ∧ freqSymbols (table []) = 0) ∧
    (legalTable (table [(0x61#8, 0x7FFFFFFF#32)]) ∧ freqSymbols (table [(0x61#8, 0x7FFFFFFF#32)]) = 1) ∧
    (legalTable abraTable ∧ freqSymbols abraTable = 5) :=
  ⟨⟨emptyTable_legal, emptyTable_symbols⟩, ⟨singleTable_legal, singleTable_symbols⟩, abraTable_legal, abraTable_symbols⟩
theorem witness_WeightsAreConserved : legalTable abraTable ∧ 1 ≤ freqSymbols abraTable ∧
    freqSymbols abraTable ≤ 8 ∧ 8 < 2 * freqSymbols abraTable - 1 := ⟨abraTable_legal, by rw [abraTable_symbols]; decide⟩
/-- Vector T20: the lowest of two negative entries. -/
theorem witness_LowestNegativeEntryIsReported :
    let F := table [(0x41#8, 1#32), (0x42#8, 0x80000000#32), (0x43#8, 0xFFFFFFFF#32)]
    (tableGet F 0x42#8).msb = true ∧ ∀ y : Byte, y.toNat < (0x42#8).toNat → (tableGet F y).msb = false := by decide +kernel
theorem witness_WrongTotalIsReportedUnderFlagC : legalTable abraTable ∧ freqTotal abraTable ≠ (12#32).toNat :=
  ⟨abraTable_legal, by decide +kernel⟩
/-- The tree of any table, with K = 5, K = 1 and K = 0 and a symbol that is present and one that is absent. -/
theorem witness_CasnAssignsTheTreePaths :
    ((withTree abraTable).treeValid = true ∧ (withTree abraTable).node = (buildTree (withTree abraTable).freq).1) ∧
    (withTree abraTable).nsym.toNat = (buildTree (withTree abraTable).freq).2 ∧
    2 ≤ (withTree abraTable).nsym.toNat ∧ (withTree (table [(0x61#8, 0x7FFFFFFF#32)])).nsym = 1#9 ∧
    (withTree (table [])).nsym = 0#9 ∧ tableGet abraTable 0x61#8 ≠ 0#32 ∧ tableGet abraTable 0x7A#8 = 0#32 := by
  refine ⟨⟨rfl, rfl⟩, ?_, ?_, ?_, ?_, ?_, ?_⟩ <;> decide +kernel
theorem witness_CasnNeedsAValidTree : State.reset.treeValid = false := rfl
/-- The premises on the state are those of `witness_CasnAssignsTheTreePaths`. -/
theorem witness_CodewordsArePrefixFree : (0x61#8 : Byte) ≠ 0x62#8 ∧
    tableGet (casn (withTree abraTable)).code 0x61#8 ≠ [] ∧ tableGet (casn (withTree abraTable)).code 0x62#8 ≠ [] := by
  decide +kernel
theorem witness_CodewordLengthsAreBounded :
    (tableGet abraTable 0x61#8 ≠ 0#32 ∧ 2 ≤ freqSymbols abraTable) ∧
    (tableGet (table [(0x61#8, 0x7FFFFFFF#32)]) 0x61#8 ≠ 0#32 ∧ freqSymbols (table [(0x61#8, 0x7FFFFFFF#32)]) = 1) ∧
    tableGet abraTable 0x7A#8 = 0#32 := by decide +kernel
theorem witness_CodeIsComplete : 2 ≤ freqSymbols abraTable := by rw [abraTable_symbols]; decide
theorem witness_CodewordsNeverExceedEightBits : legalTable abraTable := abraTable_legal
theorem witness_BencStoresTheConcatenatedCodewords :
    (withCodes abra).textLen ≠ 0#32 ∧ (withCodes abra).codeValid = true ∧
    (∀ b ∈ (withCodes abra).textOperand, tableGet (withCodes abra).code b ≠ []) ∧
    (codewords (withCodes abra).code (withCodes abra).textOperand).length ≤ Config.bitCap := by decide +kernel
theorem witness_BencOfAnEmptyTextSucceeds : State.reset.textLen = 0#32 := rfl
/-- A nonempty text without a code map; a byte without a codeword. -/
theorem witness_FailedBencLeavesTheCodewordsBefore :
    ((withText abra).textLen ≠ 0#32 ∧ (withText abra).codeValid = false) ∧
    (let s := withCodes [0x61#8, 0x62#8, 0x7A#8]
     s.codeValid = true ∧ s.textOperand = [0x61#8, 0x62#8] ++ 0x7A#8 :: [] ∧
     (∀ x ∈ [0x61#8, 0x62#8], tableGet s.code x ≠ []) ∧ (codewords s.code [0x61#8, 0x62#8]).length ≤ Config.bitCap ∧
     tableGet s.code 0x7A#8 = []) := by decide +kernel

/-- A state whose text is `n + 1` bytes 0x61 and whose code for 0x61 is `c`. -/
def longCodes (c : BitString) (n : Nat) : State :=
  { State.reset with text := (List.range (n + 1)).map (fun i => (i, 0x61#8)), textLen := BitVec.ofNat 32 (n + 1)
                     code := tableSet (Vector.replicate 256 []) 0x61#8 c, codeValid := true }

theorem lookup_range (n a i : Nat) (h : i < n) (ha : a ≤ i) :
    Memory.lookup ((List.range' a (n - a)).map (fun i => (i, 0x61#8))) i = some 0x61#8 := by
  induction hd : n - a generalizing a with
  | zero => omega
  | succ d ih =>
    rw [List.range'_succ, List.map_cons, Memory.lookup]
    split
    · rfl
    · next hne =>
      have : d = n - (a + 1) := by omega
      subst this
      exact ih (a + 1) (by omega) rfl

theorem longCodes_text (c : BitString) (n : Nat) (hn : n < 65536) :
    (longCodes c n).textOperand = List.replicate (n + 1) 0x61#8 := by
  apply List.eq_replicate_iff.2
  have hl : (longCodes c n).textLen.toNat = n + 1 := by
    change (BitVec.ofNat 32 (n + 1)).toNat = n + 1
    rw [BitVec.toNat_ofNat]; omega
  refine ⟨by simp [State.textOperand, hl], fun b hb => ?_⟩
  obtain ⟨i, hi, rfl⟩ := List.mem_map.1 hb
  rw [List.mem_range, hl] at hi
  have := lookup_range (n + 1) 0 i hi (Nat.zero_le _)
  rw [Nat.sub_zero, ← List.range_eq_range'] at this
  change (Memory.lookup _ i).getD _ = 0x61#8
  unfold longCodes
  rw [this]
  rfl

/-- CapacityExceeded: 2056 codewords of 255 bits are 524280 bits, and one more does not fit in 524288. -/
theorem witness_FailedBencCapacity (c : BitString) (hc : c.length = 255) :
    let s := longCodes c 2056
    s.codeValid = true ∧ s.textOperand = List.replicate 2056 0x61#8 ++ 0x61#8 :: [] ∧
    (∀ x ∈ List.replicate 2056 0x61#8, tableGet s.code x ≠ []) ∧
    (codewords s.code (List.replicate 2056 0x61#8)).length ≤ Config.bitCap ∧ tableGet s.code 0x61#8 ≠ [] ∧
    Config.bitCap < (codewords s.code (List.replicate 2056 0x61#8)).length + (tableGet s.code 0x61#8).length := by
  intro s
  have hs : tableGet s.code 0x61#8 = c := tableGet_set_same _ _ _
  have hne : c ≠ [] := fun h => by rw [h] at hc; cases hc
  have hlen : ∀ k, (codewords s.code (List.replicate k 0x61#8)).length = k * 255 := by
    intro k
    induction k with
    | zero => rfl
    | succ k ih => rw [List.replicate_succ, codewords, List.flatMap_cons, List.length_append, hs, hc]
                   rw [codewords] at ih; rw [ih]; omega
  refine ⟨rfl, ?_, ?_, ?_, ?_, ?_⟩
  · rw [longCodes_text c 2056 (by omega)]
    exact List.replicate_succ'
  · intro x hx
    rw [List.eq_of_mem_replicate hx, hs]
    exact hne
  · rw [hlen]; decide
  · rw [hs]; exact hne
  · rw [hlen, hs, hc]; decide
theorem witness_EncodedLengthIsTheInternalWeight :
    abra.length ≤ Config.textCap ∧ 2 ≤ freqSymbols (tableMap (BitVec.ofNat 32) (countFreq abra)) ∧
    freqSymbols (tableMap (BitVec.ofNat 32) (countFreq [0x61#8, 0x61#8])) = 1 := by decide +kernel
theorem witness_StoredBitsAreSingleBitWrites : Memory.wf [(0, 0xFF#8), (5, 0#8)] = true := by decide
theorem witness_BdecRecoversTheEncodedText :
    let s := withBits abraTable [0x6E#8, 0x8A#8, 0xDC#8] 23#32
    legalTable s.freq ∧ totalOk false s.freq s.symCount ∧ (∀ b ∈ abra, tableGet s.freq b ≠ 0#32) ∧
    abra.length ≤ Config.textCap ∧ s.bitsOperand = codewords (codeMapOf s.freq) abra :=
  ⟨abraTable_legal, fun h => Bool.noConfusion h, by decide +kernel, by decide, by decide +kernel⟩
theorem witness_DecodingInvertsEncoding : (∀ b ∈ abra, tableGet (codeMapOf abraTable) b ≠ []) ∧ abra.length ≤ Config.textCap := by
  decide +kernel
theorem witness_EncodingIsUniquelyDecodable : (∀ b ∈ abra, tableGet abraTable b ≠ 0#32) ∧
    encodeBits (codeMapOf abraTable) abra = encodeBits (codeMapOf abraTable) abra := ⟨by decide +kernel, rfl⟩
theorem witness_LeftoverBitsStrictAndLenient :
    2 ≤ freqSymbols abraTable ∧ (∀ x ∈ abra, tableGet abraTable x ≠ 0#32) ∧ abra.length ≤ Config.textCap ∧
    tableGet abraTable 0x72#8 ≠ 0#32 ∧ [true, true] ≠ ([] : BitString) ∧
    [true, true].isPrefixOf (tableGet (codeMapOf abraTable) 0x72#8) = true ∧
    [true, true] ≠ tableGet (codeMapOf abraTable) 0x72#8 := by decide +kernel
/-- The three clauses at n = 0 and n = TEXT_CAP. -/
theorem witness_SingleSymbolDecoding :
    freqSymbols (table [(0x61#8, 0x7FFFFFFF#32)]) = 1 ∧ tableGet (table [(0x61#8, 0x7FFFFFFF#32)]) 0x61#8 ≠ 0#32 ∧
    0 ≤ Config.textCap ∧ Config.textCap ≤ Config.textCap := by decide +kernel
theorem witness_DecodingWithoutSymbols :
    (∀ b : Byte, tableGet (table []) b = 0#32) ∧ totalOk true (table []) 0#32 ∧
    (withBits (table []) [0x40#8] 2#32).bitLen ≠ 0#32 ∧ (withBits (table []) [] 0#32).bitLen = 0#32 :=
  ⟨emptyTable_zero, fun _ => by decide +kernel, by decide, by decide⟩
theorem witness_DecodedTextIsCapped :
    2 ≤ freqSymbols abraTable ∧ (∀ x ∈ List.replicate (Config.textCap + 1) 0x61#8, tableGet abraTable x ≠ 0#32) ∧
    (List.replicate (Config.textCap + 1) (0x61#8 : Byte)).length = Config.textCap + 1 :=
  ⟨by rw [abraTable_symbols]; decide, fun x hx => List.eq_of_mem_replicate hx ▸ by decide +kernel, List.length_replicate⟩
/-- Vector D5: 21 bits, leftover from bit 19. -/
theorem witness_FailedBdecLeavesTheSymbolsBefore :
    let s := withBits abraTable [0x6E#8, 0x8A#8, 0xDC#8] 21#32
    legalTable s.freq ∧ totalOk false s.freq s.symCount ∧
    decodeBits s.bitsOperand (buildTree s.freq).1 (buildTree s.freq).2 false =
      (abra.take 9, some ⟨.malformedBitStream, 19#32⟩) :=
  ⟨abraTable_legal, fun h => Bool.noConfusion h, by decide +kernel⟩
theorem witness_RoundedBitCountDecodesTheText :
    (∀ b ∈ abra, tableGet abraTable b ≠ 0#32) ∧ abra.length ≤ Config.textCap := by decide +kernel
theorem witness_EncodeThenDecodeRoundTrips :
    (withText abra).textLen.toNat ≤ Config.textCap ∧
    (codewords (codeMapOf (tableMap (BitVec.ofNat 32) (countFreq (withText abra).textOperand)))
      (withText abra).textOperand).length ≤ Config.bitCap := by decide +kernel
theorem witness_RepeatedSymbolRoundTrips :
    (withText [0x61#8, 0x61#8, 0x61#8, 0x61#8]).textOperand = List.replicate 4 0x61#8 := by decide +kernel
/-- `n` at its largest value. -/
theorem witness_RepeatedSymbolRoundTrips_full : (longCodes [] 65535).textOperand = List.replicate Config.textCap 0x61#8 :=
  longCodes_text [] 65535 (by omega)
theorem witness_EmptyInputSucceedsThroughout :
    State.reset.textLen = 0#32 ∧ (∀ b, tableGet State.reset.freq b = 0#32) ∧ State.reset.bitLen = 0#32 :=
  ⟨rfl, emptyTable_zero, rfl⟩
theorem witness_AbracadabraScenario : (withText abra).textOperand = abra := by decide +kernel
theorem witness_CommandsWriteOnlyTheirOutputs :
    (∃ t, exec (.bdec true true) State.reset = .next t) ∧ (∃ t, exec .benc (withCodes abra) = .next t) := ⟨⟨_, rfl⟩, ⟨_, rfl⟩⟩
theorem witness_FailedCommandFailsAgain : ∃ t, exec .casn State.reset = .next t ∧ t.err ≠ 0#8 := ⟨_, rfl, by decide⟩
theorem witness_ValidFlagsFollowTheCommandTable :
    (∃ t, exec (.tbld false) State.reset = .next t ∧ t.err = 0#8) ∧ (∃ t, exec .casn State.reset = .next t ∧ t.err ≠ 0#8) :=
  ⟨⟨_, rfl, by decide +kernel⟩, ⟨_, rfl, by decide⟩⟩
/-- A `TBLD` on the empty table sets TREE_VALID, a `CASN` after it CODE_VALID. -/
theorem witness_ValidFlagsAreSetOnlyByTheirCommands :
    (∃ t, step (State.reset.issueNext 0x2#32) = .next t ∧ State.reset.treeValid = false ∧ t.treeValid = true) ∧
    (∃ t, step ((withTree abraTable).issueNext 0x3#32) = .next t ∧ (withTree abraTable).codeValid = false ∧
      t.codeValid = true) := by
  refine ⟨?_, ?_⟩ <;> refine ⟨_, rfl, ?_, ?_⟩ <;> decide +kernel
theorem witness_OutcomeChangesOnlyByCommands :
    (∀ w rest, ({ State.reset with pending := [rdEvent .nsym] }).pending ≠ commandWrite w :: rest) ∧
    (∀ rest, ({ State.reset with pending := [rdEvent .nsym] }).pending ≠ .reset :: rest) := by
  constructor <;> intros <;> simp [rdEvent, commandWrite]
theorem witness_StreamBitsAreMostSignificantFirst : 524287 < Config.bitCap := by decide
theorem witness_CodeWindowsShowTheCodeword : (tableGet abraCodes 0x61#8).length ≤ 255 ∧ 255 < 256 := by decide +kernel
theorem witness_TransactionsEndOkExactly :
    ({ State.reset with pending := [.read 0x23#18 .word] }).pending = .read 0x23#18 .word :: [] ∧
    ({ State.reset with pending := [.write 0xC#18 .word 0x10000#32] }).pending = .write 0xC#18 .word 0x10000#32 :: [] :=
  ⟨rfl, rfl⟩
/-- For each clause, the last element of a window among them, a state about to read it. -/
theorem witness_HostReadsReturnTheElement :
    ∀ x ∈ [Target.status, .errInfo, .textLen, .bitLen, .symCount, .nsym, .textCap, .bitCap, .freq 0xFF#8, .codeLen 0xFF#8,
      .codeBits 0xFF#8 7#3, .text 0xFFFF#16, .bitsb 0xFFFF#16],
      ({ State.reset with pending := [rdEvent x] }).pending = rdEvent x :: [] := fun _ _ => rfl
/-- The two length limits at their largest values, and the last element of each window. -/
theorem witness_HostWritesStoreTheElement :
    ({ State.reset with pending := [wrEvent .textLen 65536#32] }).pending = [wrEvent .textLen 65536#32] ∧
    (65536#32).toNat ≤ Config.textCap ∧ (524288#32).toNat ≤ Config.bitCap ∧
    ({ State.reset with pending := [wrEvent .bitLen 524288#32] }).pending = [wrEvent .bitLen 524288#32] ∧
    ({ State.reset with pending := [wrEvent .symCount 0xFFFFFFFF#32] }).pending = [wrEvent .symCount 0xFFFFFFFF#32] ∧
    ({ State.reset with pending := [wrEvent (.freq 0xFF#8) 0xFFFFFFFF#32] }).pending = [wrEvent (.freq 0xFF#8) 0xFFFFFFFF#32] ∧
    ({ State.reset with pending := [wrEvent (.text 0xFFFF#16) 1#32] }).pending = [wrEvent (.text 0xFFFF#16) 1#32] ∧
    ({ State.reset with pending := [wrEvent (.bitsb 0xFFFF#16) 1#32] }).pending = [wrEvent (.bitsb 0xFFFF#16) 1#32] := by
  refine ⟨rfl, ?_, ?_, rfl, rfl, rfl, rfl, rfl⟩ <;> decide
theorem witness_TextLineLoadsTheText : (List.replicate Config.textCap (0x61#8 : Byte)).length ≤ Config.textCap :=
  Nat.le_of_eq List.length_replicate
theorem witness_BitsLineLoadsTheBits : (List.replicate Config.bitCap true).length ≤ Config.bitCap :=
  Nat.le_of_eq List.length_replicate

/-- A state with a valid tree, about to run `CASN`. -/
theorem witness_EveryStepKeepsTheInvariant : Inv ((withTree abraTable).issueNext 0x3#32) ∧
    ∃ t, step ((withTree abraTable).issueNext 0x3#32) = .next t := by
  refine ⟨⟨?_, ?_, ?_, ?_, ?_, ?_, fun h => Bool.noConfusion h, ⟨table [], emptyTable_legal, ?_⟩, ?_, ?_, ?_⟩, _, rfl⟩
  · decide
  · decide
  · decide +kernel
  · decide +kernel
  · decide
  · exact fun _ => ⟨abraTable_legal, rfl, by decide +kernel⟩
  · exact Vector.toList_inj.1 (by decide +kernel)
  · decide +kernel
  · exact ⟨rfl, fun c h => nomatch h⟩
  · exact ⟨rfl, fun c h => nomatch h⟩

end Sys2Proof.Tests
end

/-! SUPPORT. The tree builder of 41_tree_builder.md: the leaves of a table, the queue, and what the merge loop keeps. -/

namespace Sys2Proof

/-- The child indices of a node: none for a leaf, LEFT and RIGHT for an internal node (R43). -/
def Node.children (x : Node) : List Nat := if x.leaf then [] else [x.left.toNat, x.right.toNat]

end Sys2Proof

namespace Sys2Proof.Machine

/-! ## The symbols of a table -/

/-- All 256 symbols, ascending. -/
def allBytes : List Byte := (List.range 256).map (BitVec.ofNat 8)

/-- The symbols with a nonzero entry, ascending (R131). -/
def presentSymbols (F : Vector Word 256) : List Byte := allBytes.filter (fun b => tableGet F b ≠ 0#32)

theorem mem_allBytes (b : Byte) : b ∈ allBytes :=
  List.mem_map.2 ⟨b.toNat, List.mem_range.2 b.isLt, BitVec.ofNat_toNat 8 b⟩

@[simp] theorem length_allBytes : allBytes.length = 256 := by simp [allBytes]

theorem allBytes_ascending : allBytes.Pairwise (fun b c => b.toNat < c.toNat) := by
  refine List.pairwise_map.2 (List.pairwise_lt_range.imp_of_mem fun {i j} hi hj hij => ?_)
  rw [List.mem_range] at hi hj
  rwa [BitVec.toNat_ofNat, BitVec.toNat_ofNat, Nat.mod_eq_of_lt hi, Nat.mod_eq_of_lt hj]

theorem mem_presentSymbols {F : Vector Word 256} {b : Byte} : b ∈ presentSymbols F ↔ tableGet F b ≠ 0#32 := by
  simp [presentSymbols, mem_allBytes]

theorem presentSymbols_ascending (F : Vector Word 256) :
    (presentSymbols F).Pairwise (fun b c => b.toNat < c.toNat) := allBytes_ascending.filter _

/-- A table's list is its entries at the symbols in ascending order. -/
theorem toList_eq_map_tableGet {α : Type} (v : Vector α 256) : v.toList = allBytes.map (tableGet v) := by
  apply List.ext_getElem
  · simp
  · intro i h₁ h₂
    have hi : i < 256 := by simpa using h₁
    simp [allBytes, tableGet, Nat.mod_eq_of_lt hi]

theorem zipIdx_toList {α : Type} (v : Vector α 256) :
    v.toList.zipIdx = allBytes.map (fun b => (tableGet v b, b.toNat)) := by
  apply List.ext_getElem
  · simp
  · intro i h₁ h₂
    have hi : i < 256 := by simpa using h₁
    simp [allBytes, tableGet, Nat.mod_eq_of_lt hi]

theorem freqSymbols_eq_length (F : Vector Word 256) : freqSymbols F = (presentSymbols F).length := by
  rw [freqSymbols, toList_eq_map_tableGet, List.countP_map, List.countP_eq_length_filter]
  rfl

theorem freqSymbols_le (F : Vector Word 256) : freqSymbols F ≤ 256 := by
  rw [freqSymbols_eq_length, ← length_allBytes]
  exact List.length_filter_le ..

/-- The absent symbols add nothing to the total. -/
theorem freqTotal_eq_sum (F : Vector Word 256) :
    freqTotal F = ((presentSymbols F).map (fun b => (tableGet F b).toNat)).sum := by
  rw [freqTotal, toList_eq_map_tableGet, List.map_map, presentSymbols]
  induction allBytes with
  | nil => rfl
  | cons b bs ih =>
    by_cases hb : tableGet F b = 0#32
    · simpa [hb] using ih
    · simpa [hb] using ih

/-- The total of any table, legal or not, fits a node's weight (R140). -/
theorem freqTotal_lt (F : Vector Word 256) : freqTotal F < 2 ^ 40 := by
  have h := List.sum_le_card_nsmul (F.toList.map BitVec.toNat) (2 ^ 32 - 1) fun n hn => by
    obtain ⟨v, -, rfl⟩ := List.mem_map.1 hn
    exact Nat.le_sub_one_of_lt v.isLt
  rw [List.length_map, Vector.length_toList, smul_eq_mul] at h
  unfold freqTotal
  omega

/-! ## The leaves -/

/-- The leaves are those of the present symbols in ascending order (R131). -/
theorem leaves_eq_map (F : Vector Word 256) :
    leaves F = (presentSymbols F).map (fun b => leafNode b.toNat (tableGet F b)) := by
  rw [leaves, zipIdx_toList, List.filterMap_map, presentSymbols]
  induction allBytes with
  | nil => rfl
  | cons b bs ih =>
    by_cases hb : tableGet F b = 0#32
    · simpa [hb] using ih
    · simpa [hb] using ih

theorem length_leaves (F : Vector Word 256) : (leaves F).length = freqSymbols F := by
  rw [leaves_eq_map, List.length_map, freqSymbols_eq_length]

theorem mem_leaves {F : Vector Word 256} {x : Node} :
    x ∈ leaves F ↔ ∃ b, tableGet F b ≠ 0#32 ∧ leafNode b.toNat (tableGet F b) = x := by
  simp only [leaves_eq_map, List.mem_map, mem_presentSymbols]

theorem leaf_of_mem_leaves {F : Vector Word 256} {x : Node} (h : x ∈ leaves F) : x.leaf = true := by
  obtain ⟨b, -, rfl⟩ := mem_leaves.1 h
  rfl

@[simp] theorem leafNode_sym (b : Byte) (v : Word) : (leafNode b.toNat v).sym = b := BitVec.ofNat_toNat 8 b

@[simp] theorem leafNode_weight_toNat (n : Nat) (v : Word) : (leafNode n v).weight.toNat = v.toNat :=
  BitVec.toNat_setWidth_of_le (by decide)

theorem leaves_ascending (F : Vector Word 256) : (leaves F).Pairwise (fun x y => x.sym.toNat < y.sym.toNat) := by
  rw [leaves_eq_map, List.pairwise_map]
  simpa only [leafNode_sym] using presentSymbols_ascending F

theorem sum_weight_leaves (F : Vector Word 256) : ((leaves F).map (·.weight.toNat)).sum = freqTotal F := by
  rw [leaves_eq_map, List.map_map, freqTotal_eq_sum]
  simp only [Function.comp_def, leafNode_weight_toNat]

/-! ## The arena -/

theorem nodeAt_of_lt {nodes : List Node} {n : Nat} (h : n < nodes.length) : nodeAt nodes n = nodes[n] := by
  simp [nodeAt, h]

theorem nodeAt_mem {nodes : List Node} {n : Nat} (h : n < nodes.length) : nodeAt nodes n ∈ nodes :=
  nodeAt_of_lt h ▸ List.getElem_mem h

theorem nodeAt_append_left {nodes : List Node} {n : Nat} (more : List Node) (h : n < nodes.length) :
    nodeAt (nodes ++ more) n = nodeAt nodes n := by
  simp [nodeAt, List.getElem?_append_left h]

@[simp] theorem nodeAt_append_length (nodes : List Node) (x : Node) : nodeAt (nodes ++ [x]) nodes.length = x := by
  simp [nodeAt]

/-! ## The queue -/

theorem enqueue_perm (e : QueueEntry) (q : List QueueEntry) : (enqueue e q).Perm (e :: q) := by
  induction q with
  | nil => exact .refl _
  | cons x q ih =>
    simp only [enqueue]
    split
    · exact .refl _
    · exact (ih.cons x).trans (.swap e x q)

theorem length_enqueue (e : QueueEntry) (q : List QueueEntry) : (enqueue e q).length = q.length + 1 :=
  (enqueue_perm e q).length_eq

theorem foldl_enqueue_perm (ps : List (Node × Nat)) (q : List QueueEntry) :
    (ps.foldl (fun q p => enqueue ⟨p.1.weight, p.2⟩ q) q).Perm (ps.map (fun p => ⟨p.1.weight, p.2⟩) ++ q) := by
  induction ps generalizing q with
  | nil => exact .refl q
  | cons p ps ih => exact (ih _).trans (((enqueue_perm _ q).append_left _).trans List.perm_middle)

/-- The first queue holds each node once, under its weight (R131). -/
theorem leafQueue_perm (nodes : List Node) :
    (leafQueue nodes).Perm (nodes.zipIdx.map (fun p => ⟨p.1.weight, p.2⟩)) :=
  (foldl_enqueue_perm nodes.zipIdx []).trans (.of_eq (List.append_nil _))

theorem leafQueue_map_idx (nodes : List Node) : ((leafQueue nodes).map (·.idx)).Perm (List.range nodes.length) := by
  refine ((leafQueue_perm nodes).map _).trans (.of_eq ?_)
  rw [List.map_map, List.range_eq_range', ← List.zipIdx_map_snd 0 nodes]
  rfl

theorem leafQueue_map_weight (nodes : List Node) :
    ((leafQueue nodes).map (·.weight)).Perm (nodes.map (·.weight)) := by
  refine ((leafQueue_perm nodes).map _).trans (.of_eq ?_)
  rw [List.map_map]
  conv_rhs => rw [← List.zipIdx_map_fst 0 nodes, List.map_map]
  rfl

theorem length_leafQueue (nodes : List Node) : (leafQueue nodes).length = nodes.length := by
  simpa using (leafQueue_map_idx nodes).length_eq

theorem weight_of_mem_leafQueue {nodes : List Node} {e : QueueEntry} (h : e ∈ leafQueue nodes) :
    (nodeAt nodes e.idx).weight = e.weight := by
  obtain ⟨⟨x, i⟩, hx, rfl⟩ := List.mem_map.1 ((leafQueue_perm nodes).mem_iff.1 h)
  rw [List.mem_zipIdx_iff_getElem?] at hx
  simp only [nodeAt, hx, Option.getD_some]

/-! ## The merge loop -/

/-- The induction over the merges (R133): what one merge keeps of the arena and the queue holds of the final arena and the one
entry that is left, provided the fuel is enough. -/
theorem mergeLoop_induction {P : List Node → List QueueEntry → Prop}
    (merge : ∀ nodes a b q, P nodes (a :: b :: q) →
      P (nodes ++ [internalNode (a.weight + b.weight) a.idx b.idx]) (enqueue ⟨a.weight + b.weight, nodes.length⟩ q))
    {fuel : Nat} {nodes : List Node} {q : List QueueEntry} (hne : q ≠ []) (hfuel : q.length ≤ fuel + 1) (h : P nodes q) :
    ∃ e, P (mergeLoop fuel nodes q) [e] := by
  induction fuel generalizing nodes q with
  | zero =>
    match q, hne, hfuel with
    | [e], _, _ => exact ⟨e, h⟩
  | succ fuel ih =>
    match q, hne, hfuel with
    | [e], _, _ => exact ⟨e, h⟩
    | a :: b :: q, _, hfuel =>
      have hlen := length_enqueue ⟨a.weight + b.weight, nodes.length⟩ q
      rw [List.length_cons, List.length_cons] at hfuel
      exact ih (List.ne_nil_of_length_pos (by omega)) (by omega) (merge _ _ _ _ h)

/-- The merge loop only appends to the arena. -/
theorem mergeLoop_eq_append (fuel : Nat) (nodes : List Node) (q : List QueueEntry) :
    ∃ more, mergeLoop fuel nodes q = nodes ++ more := by
  fun_induction mergeLoop fuel nodes q with
  | case1 fuel nodes a b q w ih =>
    obtain ⟨more, hmore⟩ := ih
    exact ⟨_, hmore.trans (List.append_assoc ..)⟩
  | case2 => exact ⟨[], (List.append_nil _).symm⟩

theorem nodeAt_buildTree_of_lt {F : Vector Word 256} {n : Nat} (h : n < freqSymbols F) :
    nodeAt (buildTree F).1 n = nodeAt (leaves F) n := by
  obtain ⟨more, hmore⟩ := mergeLoop_eq_append (leaves F).length (leaves F) (leafQueue (leaves F))
  rw [buildTree, hmore, nodeAt_append_left _ (by rwa [length_leaves])]

@[simp] theorem internalNode_children {w : Weight} {a b : Nat} (ha : a < 512) (hb : b < 512) :
    (internalNode w a b).children = [a, b] := by
  simp [Node.children, internalNode, Nat.mod_eq_of_lt ha, Nat.mod_eq_of_lt hb]

theorem children_of_leaf {x : Node} (h : x.leaf = true) : x.children = [] := if_pos h

theorem children_of_internal {x : Node} (h : x.leaf = false) : x.children = [x.left.toNat, x.right.toNat] := by
  simp [Node.children, h]

/-- What each node of an arena with `K` leaves is by itself: a leaf or not, with children and weight as R43 and R44 ask. -/
structure Arena (K : Nat) (nodes : List Node) : Prop where
  leaf_iff    : ∀ n, n < nodes.length → ((nodeAt nodes n).leaf = true ↔ n < K)
  children_lt : ∀ n, n < nodes.length → ∀ c ∈ (nodeAt nodes n).children, c < n
  weight_eq   : ∀ n, n < nodes.length → K ≤ n →
    (nodeAt nodes n).weight.toNat = ((nodeAt nodes n).children.map (fun c => (nodeAt nodes c).weight.toNat)).sum

/-- A new internal node over nodes of the arena. -/
theorem Arena.append {K : Nat} {nodes : List Node} {x : Node} (h : Arena K nodes) (hK : K ≤ nodes.length)
    (hleaf : x.leaf = false) (hlt : ∀ c ∈ x.children, c < nodes.length)
    (hweight : x.weight.toNat = (x.children.map (fun c => (nodeAt nodes c).weight.toNat)).sum) :
    Arena K (nodes ++ [x]) := by
  have hold : ∀ n, n < nodes.length → nodeAt (nodes ++ [x]) n = nodeAt nodes n := fun n => nodeAt_append_left [x]
  have hnew : nodeAt (nodes ++ [x]) nodes.length = x := nodeAt_append_length nodes x
  have hcases : ∀ n, n < (nodes ++ [x]).length → n < nodes.length ∨ n = nodes.length := fun n hn => by
    rw [List.length_append, List.length_singleton] at hn; omega
  have hweights : ∀ cs : List Nat, (∀ c ∈ cs, c < nodes.length) →
      cs.map (fun c => (nodeAt (nodes ++ [x]) c).weight.toNat) = cs.map (fun c => (nodeAt nodes c).weight.toNat) :=
    fun cs hcs => List.map_congr_left fun c hc => by rw [hold c (hcs c hc)]
  refine ⟨fun n hn => ?_, fun n hn c hc => ?_, fun n hn hKn => ?_⟩ <;> rcases hcases n hn with hn | rfl
  · rw [hold n hn, h.leaf_iff n hn]
  · simp [hnew, hleaf, hK]
  · exact h.children_lt n hn c (hold n hn ▸ hc)
  · exact hlt c (hnew ▸ hc)
  · rw [hold n hn, h.weight_eq n hn hKn, hweights _ fun c hc => Nat.lt_trans (h.children_lt n hn c hc) hn]
  · rw [hnew, hweight, hweights _ hlt]

/-- What every merge keeps, over an arena with `K` leaves and a queue (R44, R133, R140). -/
structure MergeInv (K total : Nat) (nodes : List Node) (q : List QueueEntry) : Prop where
  arena    : Arena K nodes
  /-- every merge takes two entries off the queue and adds one entry and one node -/
  count    : nodes.length + q.length = 2 * K
  /-- every node is either on the queue or a child of one internal node, and once only -/
  indices  : (q.map (·.idx) ++ nodes.flatMap Node.children).Perm (List.range nodes.length)
  weights  : ∀ e ∈ q, (nodeAt nodes e.idx).weight = e.weight
  total_eq : (q.map (·.weight.toNat)).sum = total

theorem MergeInv.idx_lt {K total : Nat} {nodes : List Node} {q : List QueueEntry} (h : MergeInv K total nodes q)
    {e : QueueEntry} (he : e ∈ q) : e.idx < nodes.length :=
  List.mem_range.1 (h.indices.mem_iff.1 (List.mem_append_left _ (List.mem_map_of_mem he)))

theorem MergeInv.leaves_le {K total : Nat} {nodes : List Node} {q : List QueueEntry} (h : MergeInv K total nodes q) :
    K ≤ nodes.length := by
  have hlen := h.indices.length_eq
  have hcount := h.count
  rw [List.length_append, List.length_map, List.length_range] at hlen
  omega

theorem leaves_arena (F : Vector Word 256) : Arena (freqSymbols F) (leaves F) := by
  have hleaf : ∀ n, n < (leaves F).length → (nodeAt (leaves F) n).leaf = true := fun n hn =>
    leaf_of_mem_leaves (nodeAt_mem hn)
  refine ⟨fun n hn => ?_, fun n hn c hc => ?_, fun n hn hK => ?_⟩
  · exact iff_of_true (hleaf n hn) (length_leaves F ▸ hn)
  · rw [children_of_leaf (hleaf n hn)] at hc
    exact absurd hc List.not_mem_nil
  · rw [length_leaves] at hn; omega

/-- Before the first merge every leaf is on the queue (R131). -/
theorem mergeInv_leaves (F : Vector Word 256) :
    MergeInv (freqSymbols F) (freqTotal F) (leaves F) (leafQueue (leaves F)) := by
  have hchildren : (leaves F).flatMap Node.children = [] :=
    List.flatMap_eq_nil_iff.2 fun x hx => children_of_leaf (leaf_of_mem_leaves hx)
  refine ⟨leaves_arena F, ?_, ?_, fun e => weight_of_mem_leafQueue, ?_⟩
  · rw [length_leafQueue, length_leaves]; omega
  · rw [hchildren, List.append_nil]; exact leafQueue_map_idx _
  · rw [← sum_weight_leaves]
    simpa [Function.comp_def] using ((leafQueue_map_weight (leaves F)).map BitVec.toNat).sum_eq

/-- One merge (R133). Node indices fit 9 bits because there are at most 256 leaves (R5), and no weight wraps because the
total fits 40 bits (R140). -/
theorem MergeInv.merge {K total : Nat} (hK : K ≤ 256) (htotal : total < 2 ^ 40) (nodes : List Node) (a b : QueueEntry)
    (q : List QueueEntry) (h : MergeInv K total nodes (a :: b :: q)) :
    MergeInv K total (nodes ++ [internalNode (a.weight + b.weight) a.idx b.idx])
      (enqueue ⟨a.weight + b.weight, nodes.length⟩ q) := by
  have hcount := h.count
  have htot := h.total_eq
  simp only [List.length_cons, List.map_cons, List.sum_cons] at hcount htot
  have ha : a.idx < nodes.length := h.idx_lt (by simp)
  have hb : b.idx < nodes.length := h.idx_lt (by simp)
  have hw : (a.weight + b.weight).toNat = a.weight.toNat + b.weight.toNat := BitVec.toNat_add_of_lt (by omega)
  have hchildren : (internalNode (a.weight + b.weight) a.idx b.idx).children = [a.idx, b.idx] :=
    internalNode_children (by omega) (by omega)
  have hperm := enqueue_perm ⟨a.weight + b.weight, nodes.length⟩ q
  refine ⟨h.arena.append h.leaves_le rfl ?_ ?_, ?_, ?_, fun e he => ?_, ?_⟩
  · simp [hchildren, ha, hb]
  · refine hw.trans ?_
    simp [hchildren, h.weights]
  · rw [hperm.length_eq, List.length_append, List.length_singleton, List.length_cons]; omega
  · rw [List.perm_iff_count]
    intro i
    have hi := h.indices.count_eq i
    have hq := (hperm.map (·.idx)).count_eq i
    simp only [List.map_cons, List.cons_append, List.count_cons, List.count_append] at hi hq
    simp only [List.length_append, List.length_singleton, List.range_succ, List.flatMap_append, List.flatMap_singleton,
      List.count_append, List.count_cons, List.count_nil, hchildren, hq]
    omega
  · rcases List.mem_cons.1 (hperm.mem_iff.1 he) with rfl | he
    · rw [nodeAt_append_length]; rfl
    · have he' : e ∈ a :: b :: q := List.mem_cons_of_mem _ (List.mem_cons_of_mem _ he)
      rw [nodeAt_append_left _ (h.idx_lt he'), h.weights e he']
  · rw [(hperm.map (·.weight.toNat)).sum_eq, List.map_cons, List.sum_cons, hw]
    omega

/-! ## The finished tree -/

/-- The finished arena of a table with a present symbol: one queue entry is left. -/
theorem mergeInv_buildTree {F : Vector Word 256} (hF : 1 ≤ freqSymbols F) :
    ∃ e, MergeInv (freqSymbols F) (freqTotal F) (buildTree F).1 [e] := by
  have hlen : (leafQueue (leaves F)).length = (leaves F).length := length_leafQueue _
  have hleaves := length_leaves F
  exact mergeLoop_induction (MergeInv.merge (freqSymbols_le F) (freqTotal_lt F))
    (List.ne_nil_of_length_pos (by omega)) (by omega) (mergeInv_leaves F)

theorem root_eq {K : Nat} (hK : 1 ≤ K) : root K = 2 * K - 2 := if_neg (by omega)

theorem mem_children_iff {x : Node} (h : x.leaf = false) {m : Nat} :
    m ∈ x.children ↔ x.left.toNat = m ∨ x.right.toNat = m := by
  rw [children_of_internal h, List.mem_pair]
  exact or_congr eq_comm eq_comm

section
variable {K total : Nat} {nodes : List Node} {e : QueueEntry}

/-- The last node is no child, so it is the one on the queue. -/
theorem MergeInv.idx_eq (h : MergeInv K total nodes [e]) : e.idx = 2 * K - 2 := by
  have hcount := h.count
  have hidx : e.idx < nodes.length := h.idx_lt (by simp)
  rw [List.length_singleton] at hcount
  have hlast : 2 * K - 2 ∈ [e].map (·.idx) ++ nodes.flatMap Node.children :=
    h.indices.mem_iff.2 (List.mem_range.2 (by omega))
  rcases List.mem_append.1 hlast with hmem | hmem
  · exact (List.mem_singleton.1 hmem).symm
  · obtain ⟨x, hx, hchild⟩ := List.mem_flatMap.1 hmem
    obtain ⟨n, hn, rfl⟩ := List.mem_iff_getElem.1 hx
    have := h.arena.children_lt n hn _ (nodeAt_of_lt hn ▸ hchild)
    omega

theorem MergeInv.root_weight (h : MergeInv K total nodes [e]) : (nodeAt nodes (2 * K - 2)).weight.toNat = total := by
  rw [← h.idx_eq, h.weights e List.mem_cons_self]
  simpa using h.total_eq

theorem MergeInv.nodup_children (h : MergeInv K total nodes [e]) : (nodes.flatMap Node.children).Nodup :=
  (h.indices.nodup_iff.2 List.nodup_range).of_append_right

/-- Every node but the root is a child. -/
theorem MergeInv.exists_parent (h : MergeInv K total nodes [e]) {m : Nat} (hm : m < 2 * K - 2) :
    ∃ n, n < nodes.length ∧ m ∈ (nodeAt nodes n).children := by
  have hcount := h.count
  rw [List.length_singleton] at hcount
  have hmem : m ∈ [e].map (·.idx) ++ nodes.flatMap Node.children :=
    h.indices.mem_iff.2 (List.mem_range.2 (by omega))
  rcases List.mem_append.1 hmem with hmem | hmem
  · have : m = e.idx := by simpa using hmem
    rw [h.idx_eq] at this
    omega
  · obtain ⟨x, hx, hchild⟩ := List.mem_flatMap.1 hmem
    obtain ⟨n, hn, rfl⟩ := List.mem_iff_getElem.1 hx
    exact ⟨n, hn, nodeAt_of_lt hn ▸ hchild⟩

/-- No node is a child of two nodes. -/
theorem MergeInv.parent_unique (h : MergeInv K total nodes [e]) {m n n' : Nat} (hn : n < nodes.length)
    (hn' : n' < nodes.length) (hm : m ∈ (nodeAt nodes n).children) (hm' : m ∈ (nodeAt nodes n').children) : n = n' := by
  have hdisjoint := List.pairwise_iff_getElem.1 (List.nodup_flatMap.1 h.nodup_children).2
  rw [nodeAt_of_lt hn] at hm
  rw [nodeAt_of_lt hn'] at hm'
  rcases Nat.lt_trichotomy n n' with hlt | heq | hlt
  · exact absurd hm' (hdisjoint n n' hn hn' hlt hm)
  · exact heq
  · exact absurd hm (hdisjoint n' n hn' hn hlt hm')

theorem MergeInv.leaf_eq_false (h : MergeInv K total nodes [e]) {n : Nat} (hn : n < nodes.length) (hK : K ≤ n) :
    (nodeAt nodes n).leaf = false := by
  rw [Bool.eq_false_iff, ne_eq, h.arena.leaf_iff n hn]
  omega

theorem MergeInv.left_ne_right (h : MergeInv K total nodes [e]) {n : Nat} (hn : n < nodes.length) (hK : K ≤ n) :
    (nodeAt nodes n).left ≠ (nodeAt nodes n).right := by
  have hnodup := (List.nodup_flatMap.1 h.nodup_children).1 _ (nodeAt_mem hn)
  rw [children_of_internal (h.leaf_eq_false hn hK), List.nodup_cons, List.mem_singleton] at hnodup
  exact fun heq => hnodup.1 (congrArg _ heq)

end

/-- The leaves of the tree are in ascending order of symbol (R131, R44). -/
theorem buildTree_sym_lt (F : Vector Word 256) {n m : Nat} (hnm : n < m) (hm : m < freqSymbols F) :
    (nodeAt (buildTree F).1 n).sym.toNat < (nodeAt (buildTree F).1 m).sym.toNat := by
  have hn' : n < (leaves F).length := by rw [length_leaves]; omega
  have hm' : m < (leaves F).length := by rwa [length_leaves]
  rw [nodeAt_buildTree_of_lt (hnm.trans hm), nodeAt_buildTree_of_lt hm, nodeAt_of_lt hn', nodeAt_of_lt hm']
  exact List.pairwise_iff_getElem.1 (leaves_ascending F) n m hn' hm' hnm

theorem buildTree_of_freqSymbols_eq_zero {F : Vector Word 256} (h : freqSymbols F = 0) : (buildTree F).1 = [] := by
  have hleaves : leaves F = [] := List.length_eq_zero_iff.1 (by rw [length_leaves, h])
  simp [buildTree, hleaves, leafQueue, mergeLoop]

/-- Settles O15: the clauses of R44 read off what every merge keeps. Legality is not needed: no total of 32-bit entries
reaches 2^40. -/
theorem arenaIsAStrictBinaryTree : Obligations.ArenaIsAStrictBinaryTree := by
  intro F _ K N
  refine ⟨buildTree_of_freqSymbols_eq_zero, fun hK => ?_⟩
  obtain ⟨e, h⟩ : ∃ e, MergeInv K (freqTotal F) N [e] := mergeInv_buildTree hK
  have hlen : N.length = 2 * K - 1 := by
    have hcount := h.count
    rw [List.length_singleton] at hcount
    omega
  refine ⟨hlen, root_eq hK, fun n hn => ?_, fun n m => buildTree_sym_lt F, fun n hKn hn => ?_, fun m hm => ?_, ?_⟩
  · exact (h.arena.leaf_iff n (by omega)).2 hn
  · rw [← hlen] at hn
    have hleaf := h.leaf_eq_false hn hKn
    have hchild := h.arena.children_lt n hn
    exact ⟨hleaf, h.left_ne_right hn hKn, hchild _ ((mem_children_iff hleaf).2 (.inl rfl)),
      hchild _ ((mem_children_iff hleaf).2 (.inr rfl))⟩
  · obtain ⟨n, hn, hmem⟩ := h.exists_parent hm
    have hKn : K ≤ n := by
      by_contra hlt
      rw [children_of_leaf ((h.arena.leaf_iff n hn).2 (by omega))] at hmem
      exact absurd hmem List.not_mem_nil
    refine ⟨n, ⟨hKn, hlen ▸ hn, (mem_children_iff (h.leaf_eq_false hn hKn)).1 hmem⟩, fun n' hKn' hn' hmem' => ?_⟩
    rw [← hlen] at hn'
    exact h.parent_unique hn' hn ((mem_children_iff (h.leaf_eq_false hn' hKn')).2 hmem') hmem
  · rw [root_eq hK]
    exact h.root_weight

end Sys2Proof.Machine

/-! SUPPORT. The STATUS word, what each command writes, and what a step does to the block. -/

namespace Sys2Proof.Machine

/-! ## The STATUS word -/

/-- Every bit of the STATUS word (R26). -/
theorem getLsbD_statusWord (b : Block) (i : Nat) :
    b.statusWord.getLsbD i =
      if i = 0 then b.treeValid else if i = 1 then b.codeValid else if i = 2 then b.empty
      else decide (8 ≤ i) && b.err.getLsbD (i - 8) := by
  change BitVec.getLsbD
    (0#16 ++ b.err ++ 0#5 ++ BitVec.ofBool b.empty ++ BitVec.ofBool b.codeValid ++ BitVec.ofBool b.treeValid) i = _
  simp only [BitVec.getLsbD_append, BitVec.getLsbD_ofBool, BitVec.getLsbD_zero]
  obtain rfl | rfl | rfl | ⟨h3, h8⟩ | ⟨h8, h16⟩ | h16 :
      i = 0 ∨ i = 1 ∨ i = 2 ∨ (3 ≤ i ∧ i < 8) ∨ (8 ≤ i ∧ i < 16) ∨ 16 ≤ i := by omega
  · rfl
  · rfl
  · rfl
  · grind
  · grind
  · grind

theorem getLsbD_statusWord_of_ge (b : Block) {i : Nat} (h : 3 ≤ i) :
    b.statusWord.getLsbD i = (decide (8 ≤ i) && b.err.getLsbD (i - 8)) := by
  rw [getLsbD_statusWord, if_neg (by omega), if_neg (by omega), if_neg (by omega)]

/-- Settles O48: field by field, from the bits of the word (R26). -/
theorem statusWordFields : Obligations.StatusWordFields := by
  intro s
  refine ⟨getLsbD_statusWord _ 0, getLsbD_statusWord _ 1, getLsbD_statusWord _ 2, ?_, ?_, ?_⟩ <;> ext i hi <;>
    rw [BitVec.getElem_extractLsb', getLsbD_statusWord_of_ge _ (by omega)]
  · simp; omega
  · simp [BitVec.getLsbD_eq_getElem hi]
  · rw [BitVec.getLsbD_of_ge _ _ (by omega), Bool.and_false, BitVec.getElem_zero]

/-! ## What each command writes (R41) -/

theorem tbld_writes (c : Bool) (s : State) : ∃ nodes k tree e err info,
    tbld c s = { s with node := nodes, nsym := k, treeValid := tree, empty := e, err := err, errInfo := info } := by
  obtain ⟨r, -, h⟩ | ⟨-, h⟩ := tbld_cases c s <;> exact ⟨_, _, _, _, _, _, h⟩

theorem casn_writes (s : State) : ∃ code valid e err info,
    casn s = { s with code := code, treeValid := false, codeValid := valid
                      empty := e, err := err, errInfo := info } := by
  obtain ⟨-, h⟩ | ⟨hs, h⟩ := casn_cases s
  · exact ⟨_, _, _, _, _, h⟩
  · exact ⟨_, _, _, _, _, h.trans (by rw [← hs]; rfl)⟩

theorem benc_writes (s : State) : ∃ bits len e err info,
    benc s = { s with bits := bits, bitLen := len, empty := e, err := err, errInfo := info } := by
  obtain ⟨-, h⟩ | ⟨-, -, h⟩ | ⟨-, -, _, _, -, h⟩ | ⟨-, -, _, -, h⟩ := benc_cases s <;> exact ⟨_, _, _, _, _, h⟩

theorem bdec_writes (l c : Bool) (s : State) : ∃ text len nodes k e err info,
    bdec l c s = { s with text := text, textLen := len, node := nodes, nsym := k, treeValid := false
                          empty := e, err := err, errInfo := info } := by
  obtain ⟨_, -, h⟩ | ⟨-, _, _, -, ⟨_, -, h⟩ | ⟨-, h⟩⟩ := bdec_cases l c s <;> exact ⟨_, _, _, _, _, _, _, h⟩

/-- Settles O43: command by command, from what each writes. -/
theorem commandsWriteOnlyTheirOutputs : Obligations.CommandsWriteOnlyTheirOutputs := by
  intro i s t h
  obtain rfl := exec_eq_next h
  cases i with
  | fcnt => simp [afterCommand, fcnt, State.textAt, State.bitsbAt]
  | tbld c =>
    obtain ⟨_, _, _, _, _, _, h⟩ := tbld_writes c s
    simp [afterCommand, h, State.textAt, State.bitsbAt]
  | casn =>
    obtain ⟨_, _, _, _, _, h⟩ := casn_writes s
    simp [afterCommand, h, State.textAt, State.bitsbAt]
  | benc =>
    obtain ⟨_, _, _, _, _, h⟩ := benc_writes s
    simp [afterCommand, h, State.textAt]
  | bdec l c =>
    obtain ⟨_, _, _, _, _, _, _, h⟩ := bdec_writes l c s
    simp [afterCommand, h, State.bitsbAt]
  | clr => simp [afterCommand, clr, State.textAt, State.bitsbAt]

/-! ## Which command sets a valid flag (R27, R28) -/

/-- Only a successful `TBLD` sets TREE_VALID (R27). -/
theorem tbld_of_treeValid_afterCommand {i : Instr} {s : State} (hs : s.treeValid = false)
    (ht : (afterCommand i s).treeValid = true) : ∃ c, i = .tbld c ∧ (afterCommand i s).err = 0#8 := by
  cases i with
  | fcnt => cases ht
  | tbld c =>
    refine ⟨c, rfl, ?_⟩
    obtain ⟨r, -, h⟩ | ⟨-, h⟩ := tbld_cases c s <;> rw [afterCommand, h] at ht ⊢
    · cases ht
    · rfl
  | casn =>
    obtain ⟨_, _, _, _, _, h⟩ := casn_writes s
    rw [afterCommand, h] at ht; cases ht
  | benc =>
    obtain ⟨_, _, _, _, _, h⟩ := benc_writes s
    rw [afterCommand, h] at ht; cases hs.symm.trans ht
  | bdec l c =>
    obtain ⟨_, _, _, _, _, _, _, h⟩ := bdec_writes l c s
    rw [afterCommand, h] at ht; cases ht
  | clr => cases ht

/-- Only a successful `CASN` sets CODE_VALID (R28). -/
theorem casn_of_codeValid_afterCommand {i : Instr} {s : State} (hs : s.codeValid = false)
    (ht : (afterCommand i s).codeValid = true) : i = .casn ∧ (afterCommand i s).err = 0#8 := by
  cases i with
  | fcnt => cases ht
  | tbld c =>
    obtain ⟨_, _, _, _, _, _, h⟩ := tbld_writes c s
    rw [afterCommand, h] at ht; cases hs.symm.trans ht
  | casn =>
    refine ⟨rfl, ?_⟩
    obtain ⟨-, h⟩ | ⟨-, h⟩ := casn_cases s <;> rw [afterCommand, h] at ht ⊢
    · rfl
    · cases ht
  | benc =>
    obtain ⟨_, _, _, _, _, h⟩ := benc_writes s
    rw [afterCommand, h] at ht; cases hs.symm.trans ht
  | bdec l c =>
    obtain ⟨_, _, _, _, _, _, _, h⟩ := bdec_writes l c s
    rw [afterCommand, h] at ht; cases hs.symm.trans ht
  | clr => cases ht

/-! ## The word of a command -/

theorem packFields_fieldsOf (w : Word) : packFields (fieldsOf w) = w := by
  apply BitVec.eq_of_getLsbD_eq
  intro i hi
  change BitVec.getLsbD
    (w.extractLsb' 6 26 ++ BitVec.ofBool (w.getLsbD 5) ++ BitVec.ofBool (w.getLsbD 4) ++ w.extractLsb' 0 4) i = _
  simp only [BitVec.getLsbD_append, BitVec.getLsbD_ofBool, BitVec.getLsbD_extractLsb']
  obtain h | rfl | rfl | h : i < 4 ∨ i = 4 ∨ i = 5 ∨ 6 ≤ i := by omega
  · simp [h]
  · simp
  · simp
  · obtain ⟨k, rfl⟩ := Nat.exists_eq_add_of_le h
    grind

/-- The fields of a legal word are those of its command (R91 to R93). -/
theorem fieldsOf_of_decode {w : Word} {i : Instr} (h : decode w = .ok i) : fieldsOf w = i.fields := by
  unfold decode at h
  generalize fieldsOf w = f at h
  obtain ⟨op, l, c, rsv⟩ := f
  simp only [] at h
  split at h
  · cases h
  · next hr =>
    obtain rfl := not_not.1 hr
    split at h
    case h_7 => split_ifs at h
    all_goals
      next hop =>
      cases h
      exact congrArg (CommandFields.mk · _ _ _) (BitVec.eq_of_toNat_eq hop)

/-- The decoder accepts only the encoder's words (R96). -/
theorem eq_encode_of_decode {w : Word} {i : Instr} (h : decode w = .ok i) : w = encode i := by
  rw [encode, ← fieldsOf_of_decode h, packFields_fieldsOf]

/-- An issued word is the word of a command, which runs, or it is illegal (R201). -/
theorem afterWord_cases (w : Word) (s : State) :
    (∃ i, w = encode i ∧ afterWord w s = afterCommand i s) ∨
    (∃ r, decode w = .error r ∧ afterWord w s = illegalWord w s) := by
  unfold afterWord
  cases h : decode w with
  | ok i => exact .inl ⟨i, eq_encode_of_decode h, rfl⟩
  | error r => exact .inr ⟨r, rfl, rfl⟩

/-- An issued word that sets TREE_VALID is a `TBLD` word, and the command succeeds (R27). -/
theorem tbld_of_treeValid_afterWord {w : Word} {s : State} (hs : s.treeValid = false)
    (ht : (afterWord w s).treeValid = true) : ∃ c, w = encode (.tbld c) ∧ (afterWord w s).err = 0#8 := by
  obtain ⟨i, rfl, h⟩ | ⟨_, -, h⟩ := afterWord_cases w s <;> rw [h] at ht ⊢
  · obtain ⟨c, rfl, herr⟩ := tbld_of_treeValid_afterCommand hs ht
    exact ⟨c, rfl, herr⟩
  · cases hs.symm.trans ht

/-- An issued word that sets CODE_VALID is the `CASN` word, and the command succeeds (R28). -/
theorem casn_of_codeValid_afterWord {w : Word} {s : State} (hs : s.codeValid = false)
    (ht : (afterWord w s).codeValid = true) : w = encode .casn ∧ (afterWord w s).err = 0#8 := by
  obtain ⟨i, rfl, h⟩ | ⟨_, -, h⟩ := afterWord_cases w s <;> rw [h] at ht ⊢
  · obtain ⟨rfl, herr⟩ := casn_of_codeValid_afterCommand hs ht
    exact ⟨rfl, herr⟩
  · cases hs.symm.trans ht

/-! ## What a step does to the block -/

theorem registerAt_eq_cmd {n : Nat} (h : registerAt n = some .cmd) : n = 0 := by
  unfold registerAt at h
  split at h
  · rfl
  all_goals cases h

theorem targetAt_eq_cmd {addr : Addr} (h : targetAt addr = some .cmd) : addr.toNat / 4 = 0 := by
  simp only [targetAt] at h
  split_ifs at h
  · exact registerAt_eq_cmd h
  all_goals cases h

/-- A write that ends ok is to a mapped element, of its size and aligned (R65). -/
theorem access_of_writeTarget {addr : Addr} {size : AccessSize} {w : Word} {x : Target}
    (h : writeTarget addr size w = .ok x) :
    targetAt addr = some x ∧ size = accessSizeOf x ∧ (size = .word → addr.toNat % 4 = 0) := by
  unfold writeTarget accessTarget at h
  cases ht : targetAt addr with
  | none => simp [ht] at h
  | some y =>
    simp only [ht] at h
    grind

/-- Only a word write to address 0 reaches `CMD` (R25, R61). -/
theorem eq_commandWrite_of_writeTarget {addr : Addr} {size : AccessSize} {w : Word}
    (h : writeTarget addr size w = .ok .cmd) : HostEvent.write addr size w = commandWrite w := by
  obtain ⟨htarget, rfl, haligned⟩ := access_of_writeTarget h
  have hdiv := targetAt_eq_cmd htarget
  have hmod := haligned rfl
  have haddr : addr = 0#18 := BitVec.eq_of_toNat_eq (by rw [BitVec.toNat_ofNat]; omega)
  rw [haddr]
  rfl

/-- A step keeps the block, runs the word of a write to `CMD`, stores into another element, or resets the block. -/
theorem step_block_cases {s t : State} (h : step s = .next t) :
    t.toBlock = s.toBlock ∨
    (∃ w rest, s.pending = commandWrite w :: rest ∧ t.toBlock = (afterWord w { s with pending := rest }).toBlock) ∨
    (∃ v x rest, t.toBlock = (storeTarget { s with pending := rest } v x).toBlock) ∨
    (∃ rest, s.pending = .reset :: rest ∧ t.toBlock = Block.reset) := by
  obtain ⟨-, hstep⟩ | ⟨e, rest, hp, hstep⟩ := step_cases s
  · cases h.symm.trans hstep
    exact .inl rfl
  · obtain ⟨_, _, _, -, -, hperf⟩ | ⟨_, _, _, -, -, hperf⟩ | ⟨_, _, w, rfl, hw, hperf⟩ |
      ⟨_, _, v, x, -, -, -, hperf⟩ | ⟨_, _, _, _, -, -, hperf⟩ | ⟨rfl, hperf⟩ :=
      perform_cases e { s with pending := rest } <;> cases h.symm.trans (hstep.trans hperf)
    · exact .inl rfl
    · exact .inl rfl
    · exact .inr (.inl ⟨w, rest, eq_commandWrite_of_writeTarget hw ▸ hp, rfl⟩)
    · exact .inr (.inr (.inl ⟨v, x, rest, rfl⟩))
    · exact .inl rfl
    · exact .inr (.inr (.inr ⟨rest, hp, rfl⟩))

/-- A store leaves the outcome of the last command alone (R29 to R31). -/
theorem storeTarget_outcome (s : State) (v : Word) (x : Target) :
    (storeTarget s v x).err = s.err ∧ (storeTarget s v x).errInfo = s.errInfo ∧
      (storeTarget s v x).empty = s.empty := by
  cases x <;> exact ⟨rfl, rfl, rfl⟩

/-- A store sets no valid flag (R27, R28, R36). -/
theorem storeTarget_valid (s : State) (v : Word) (x : Target) :
    ((storeTarget s v x).treeValid = true → s.treeValid = true) ∧
      ((storeTarget s v x).codeValid = true → s.codeValid = true) := by
  cases x with
  | freq b => exact ⟨Bool.noConfusion, Bool.noConfusion⟩
  | _ => exact ⟨id, id⟩

/-- Settles O46: of all a step can do, only an issued word sets a valid flag. -/
theorem validFlagsAreSetOnlyByTheirCommands : Obligations.ValidFlagsAreSetOnlyByTheirCommands := by
  intro s t h
  obtain hb | ⟨w, rest, hp, hb⟩ | ⟨v, x, rest, hb⟩ | ⟨rest, -, hb⟩ := step_block_cases h <;> rw [hb]
  · exact ⟨fun hs ht => absurd (hs.symm.trans ht) Bool.false_ne_true,
      fun hs ht => absurd (hs.symm.trans ht) Bool.false_ne_true⟩
  · refine ⟨fun hs ht => ?_, fun hs ht => ?_⟩
    · obtain ⟨c, rfl, herr⟩ := tbld_of_treeValid_afterWord (s := { s with pending := rest }) hs ht
      exact ⟨c, rest, hp, herr⟩
    · obtain ⟨rfl, herr⟩ := casn_of_codeValid_afterWord (s := { s with pending := rest }) hs ht
      exact ⟨rest, hp, herr⟩
  · obtain ⟨htree, hcode⟩ := storeTarget_valid { s with pending := rest } v x
    exact ⟨fun hs ht => absurd (hs.symm.trans (htree ht)) Bool.false_ne_true,
      fun hs ht => absurd (hs.symm.trans (hcode ht)) Bool.false_ne_true⟩
  · exact ⟨fun _ => Bool.noConfusion, fun _ => Bool.noConfusion⟩

/-- Settles O47: a step that issues no word and is no reset keeps the block or stores into it. -/
theorem outcomeChangesOnlyByCommands : Obligations.OutcomeChangesOnlyByCommands := by
  intro s t h hcmd hreset
  obtain hb | ⟨w, rest, hp, -⟩ | ⟨v, x, rest, hb⟩ | ⟨rest, hp, -⟩ := step_block_cases h
  · rw [hb]; exact ⟨rfl, rfl, rfl⟩
  · exact absurd hp (hcmd w rest)
  · rw [hb]; exact storeTarget_outcome { s with pending := rest } v x
  · exact absurd hp (hreset rest)

end Sys2Proof.Machine

/-! SUPPORT. The buffers of 20_memory.md: a buffer in canonical form is given by the indices it lists and its bits, so storing
bytewise and storing bit by bit (R68) agree. -/

namespace Sys2Proof.Machine

/-! ## A buffer is given by its entries -/

theorem Memory.wf_iff_pairwise {m : Memory} : m.wf = true ↔ m.Pairwise (fun c d => c.1 < d.1) := by
  induction m with
  | nil => exact iff_of_true rfl .nil
  | cons c m ih => rw [Memory.wf_cons, List.pairwise_cons, ih]

theorem Memory.lookup_eq_some_iff {m : Memory} (h : m.wf = true) {a : Nat} {b : Byte} :
    m.lookup a = some b ↔ (a, b) ∈ m := by
  induction m with
  | nil => simp [Memory.lookup, Memory.unlisted]
  | cons c m ih =>
    obtain ⟨k, v⟩ := c
    obtain ⟨hk, hm⟩ := Memory.wf_cons.1 h
    by_cases hka : k = a
    · subst hka
      have hnot : (k, b) ∉ m := fun hmem => Nat.lt_irrefl k (hk _ hmem)
      simp [Memory.lookup, hnot, eq_comm]
    · simp [Memory.lookup, hka, Ne.symm hka, ih hm]

/-- Two buffers in canonical form that list the same entries are equal. -/
theorem Memory.ext_lookup {m m' : Memory} (h : m.wf = true) (h' : m'.wf = true)
    (hlookup : ∀ a, m.lookup a = m'.lookup a) : m = m' := by
  have hmem : ∀ c, c ∈ m ↔ c ∈ m' := fun ⟨a, b⟩ => by
    rw [← Memory.lookup_eq_some_iff h, hlookup, Memory.lookup_eq_some_iff h']
  have : Std.Asymm (fun c d : Host.Cell => c.1 < d.1) := ⟨fun _ _ => Nat.lt_asymm⟩
  have : Std.Irrefl (fun c d : Host.Cell => c.1 < d.1) := ⟨fun _ => Nat.lt_irrefl _⟩
  exact (Memory.wf_iff_pairwise.1 h).eq_of_mem_iff (Memory.wf_iff_pairwise.1 h') hmem

/-- A listed index holds the byte that is read there. -/
theorem Memory.lookup_eq_of_isSome (free : Nat → Byte) {m : Memory} {a : Nat} (h : (m.lookup a).isSome) :
    m.lookup a = some (m.byteAt free a) := by
  obtain ⟨b, hb⟩ := Option.isSome_iff_exists.1 h
  rw [Memory.byteAt, hb, Option.getD_some]

/-- The eight bits of a byte of the buffer are the bit string's bits from `8 a` on (R66). -/
theorem Memory.getMsbD_byteAt (free : Nat → Byte) (m : Memory) (a : Nat) {t : Nat} (ht : t < 8) :
    (m.byteAt free a).getMsbD t = m.bitAt free (8 * a + t) := by
  rw [Memory.bitAt, show (8 * a + t) / 8 = a by omega, show (8 * a + t) % 8 = t by omega]

/-- Two buffers with the same bits have the same bytes. -/
theorem Memory.byteAt_eq_of_bitAt {free : Nat → Byte} {m m' : Memory} (h : ∀ j, m.bitAt free j = m'.bitAt free j)
    (a : Nat) : m.byteAt free a = m'.byteAt free a :=
  BitVec.eq_of_getMsbD_eq fun t ht => by rw [Memory.getMsbD_byteAt _ _ _ ht, Memory.getMsbD_byteAt _ _ _ ht, h]

/-- Two buffers in canonical form that list the same indices and have the same bits are equal. -/
theorem Memory.ext_bitAt (free : Nat → Byte) {m m' : Memory} (h : m.wf = true) (h' : m'.wf = true)
    (hlisted : ∀ a, (m.lookup a).isSome ↔ (m'.lookup a).isSome)
    (hbit : ∀ j, m.bitAt free j = m'.bitAt free j) : m = m' := by
  refine Memory.ext_lookup h h' fun a => ?_
  by_cases ha : (m.lookup a).isSome
  · rw [Memory.lookup_eq_of_isSome free ha, Memory.lookup_eq_of_isSome free ((hlisted a).1 ha),
      Memory.byteAt_eq_of_bitAt hbit]
  · have ha' := mt (hlisted a).2 ha
    rw [Option.not_isSome_iff_eq_none] at ha ha'
    rw [ha, ha']

/-! ## What a store lists -/

theorem Memory.isSome_lookup_write (m : Memory) (a : Nat) (v : Byte) (x : Nat) :
    ((m.write a v).lookup x).isSome ↔ a = x ∨ (m.lookup x).isSome := by
  rw [Memory.lookup_write]
  split <;> simp [*]

/-- `putBits` lists the bytes it writes, the last of which may be partial. -/
theorem Memory.isSome_lookup_putBits (free : Nat → Byte) (m : Memory) (bs : BitString) (x : Nat) :
    ((m.putBits free bs).lookup x).isSome ↔ 8 * x < bs.length ∨ (m.lookup x).isSome := by
  have hrange : 8 * x < bs.length ↔ x ∈ List.range ((bs.length + 7) / 8) := by rw [List.mem_range]; omega
  rw [hrange, Memory.putBits]
  generalize List.range ((bs.length + 7) / 8) = ks
  induction ks generalizing m with
  | nil => simp
  | cons k ks ih =>
    refine (ih _).trans ?_
    rw [Memory.isSome_lookup_write, List.mem_cons]
    tauto

/-! ## A sequence of BitWrites (R68) -/

theorem wf_bitWrites (free : Nat → Byte) {m : Memory} (j : Nat) (bs : BitString) (h : m.wf = true) :
    (bitWrites free m j bs).wf = true := by
  induction bs generalizing m j with
  | nil => exact h
  | cons b bs ih => exact ih _ (Memory.wf_bitWrite free j b h)

/-- `BitWrite`s list the byte of each bit they write. -/
theorem isSome_lookup_bitWrites (free : Nat → Byte) (m : Memory) (j : Nat) (bs : BitString) (x : Nat) :
    ((bitWrites free m j bs).lookup x).isSome ↔
      x ∈ (List.range' j bs.length).map (· / 8) ∨ (m.lookup x).isSome := by
  induction bs generalizing m j with
  | nil => simp [bitWrites]
  | cons b bs ih =>
    rw [bitWrites, ih, Memory.bitWrite, Memory.isSome_lookup_write, List.length_cons, List.range'_succ, List.map_cons,
      List.mem_cons]
    tauto

/-- What a sequence of `BitWrite`s does to every bit: the new ones from `j` on, all others as before. -/
theorem bitAt_bitWrites (free : Nat → Byte) (m : Memory) (j : Nat) (bs : BitString) (x : Nat) :
    (bitWrites free m j bs).bitAt free x = if j ≤ x then bs[x - j]?.getD (m.bitAt free x) else m.bitAt free x := by
  induction bs generalizing m j with
  | nil => simp [bitWrites]
  | cons b bs ih =>
    rw [bitWrites, ih, Memory.bitAt_bitWrite]
    obtain hlt | rfl | ⟨d, rfl⟩ : x < j ∨ x = j ∨ ∃ d, x = j + 1 + d := by
      rcases Nat.lt_trichotomy x j with h | h | h
      · exact .inl h
      · exact .inr (.inl h)
      · exact .inr (.inr (Nat.exists_eq_add_of_le h))
    · rw [if_neg (by omega), if_neg (by omega), if_neg (by omega)]
    · simp
    · rw [if_pos (by omega), if_neg (by omega), if_pos (by omega), Nat.add_sub_cancel_left,
        show j + 1 + d - j = d + 1 by omega, List.getElem?_cons_succ]

/-- Settles O29: the two stores list the same bytes, have the same bits, and keep the canonical form. -/
theorem storedBitsAreSingleBitWrites : Obligations.StoredBitsAreSingleBitWrites := by
  intro free m bs hm
  refine Memory.ext_bitAt free (Memory.wf_putBits free bs hm) (wf_bitWrites free 0 bs hm) (fun x => ?_) (fun j => ?_)
  · have hbyte : 8 * x < bs.length ↔ x ∈ (List.range' 0 bs.length).map (· / 8) := by
      simp only [List.mem_map, List.mem_range'_1]
      exact ⟨fun h => ⟨8 * x, by omega⟩, fun ⟨i, _, _⟩ => by omega⟩
    rw [Memory.isSome_lookup_putBits, isSome_lookup_bitWrites, hbyte]
  · rw [Memory.bitAt_putBits, bitAt_bitWrites, if_pos (Nat.zero_le j), Nat.sub_zero]

/-- Settles O49: reading bit `t` from the most significant end is reading bit `7 - t` (R66). -/
theorem streamBitsAreMostSignificantFirst : Obligations.StreamBitsAreMostSignificantFirst := by
  intro s j _
  have ht : j % 8 < 8 := Nat.mod_lt _ (by omega)
  simp [State.bitAt, Memory.bitAt, State.bitsbAt, BitVec.getMsbD, ht]

end Sys2Proof.Machine

/-! SUPPORT. The host port of 20_memory.md: the address map (R61, R62), which transactions end ok (R65), and what those that do
answer and store (R60, R63). -/

namespace Sys2Proof.Machine

/-! ## The address of each element (R61, R106) -/

/-- The address of an element as a number (R61, R106). -/
def firstByte : Target → Nat
  | .cmd          => 0x0
  | .status       => 0x4
  | .errInfo      => 0x8
  | .textLen      => 0xC
  | .bitLen       => 0x10
  | .symCount     => 0x14
  | .nsym         => 0x18
  | .textCap      => 0x1C
  | .bitCap       => 0x20
  | .freq b       => 0x400 + 4 * b.toNat
  | .codeLen b    => 0x800 + 4 * b.toNat
  | .codeBits b w => 0x2000 + 32 * b.toNat + 4 * w.toNat
  | .text i       => 0x10000 + i.toNat
  | .bitsb b      => 0x20000 + b.toNat

/-- The address space has room for every element (R61). -/
theorem firstByte_lt (x : Target) : firstByte x < 2 ^ 18 := by
  cases x <;> simp only [firstByte] <;> omega

theorem toNat_targetAddr (x : Target) : (targetAddr x).toNat = firstByte x := by
  have h := Nat.mod_eq_of_lt (firstByte_lt x)
  cases x <;> exact h

theorem targetAt_of_toNat_eq {a : Addr} {x : Target} (h : a.toNat = firstByte x) : targetAt a = some x := by
  cases x with
  | cmd | status | errInfo | textLen | bitLen | symCount | nsym | textCap | bitCap =>
    simp [targetAt, h, firstByte, registerAt]
  | codeBits b w =>
    simp only [firstByte] at h
    have hsym : (a.toNat - 0x2000) / 32 = b.toNat := by omega
    have hword : BitVec.ofNat 3 ((a.toNat - 0x2000) / 4) = w :=
      BitVec.eq_of_toNat_eq (by rw [BitVec.toNat_ofNat]; omega)
    simp only [targetAt]
    repeat rw [if_neg (by omega)]
    rw [if_pos (by omega), hsym, hword]
    simp
  | _ =>
    simp only [firstByte] at h
    simp only [targetAt]
    repeat rw [if_neg (by omega)]
    rw [if_pos (by omega), h]
    simp

/-- Each element is found at its address. -/
theorem targetAt_targetAddr (x : Target) : targetAt (targetAddr x) = some x :=
  targetAt_of_toNat_eq (toNat_targetAddr x)

/-- The number of bytes of an access (R60, R63). -/
def accessBytes : AccessSize → Nat
  | .byte => 1
  | .word => 4

theorem registerAt_eq_none_iff {n : Nat} : registerAt n = none ↔ 9 ≤ n := by
  unfold registerAt
  split <;> grind

theorem registerAt_eq_some {n : Nat} {x : Target} (h : registerAt n = some x) :
    firstByte x = 4 * n ∧ accessSizeOf x = .word := by
  unfold registerAt at h
  split at h <;> cases h <;> exact ⟨rfl, rfl⟩

theorem targetAt_eq_none_iff {a : Addr} : targetAt a = none ↔
    (0x00024 ≤ a.toNat ∧ a.toNat ≤ 0x003FF) ∨ (0x00C00 ≤ a.toNat ∧ a.toNat ≤ 0x01FFF) ∨
    (0x04000 ≤ a.toNat ∧ a.toNat ≤ 0x0FFFF) ∨ 0x30000 ≤ a.toNat := by
  simp only [targetAt]
  split_ifs
  · rw [registerAt_eq_none_iff]; omega
  all_goals simp only [false_iff, true_iff]; omega

/-- An address whose element is `x` is one of the bytes of `x`. -/
theorem targetAt_bounds {a : Addr} {x : Target} (h : targetAt a = some x) :
    firstByte x ≤ a.toNat ∧ a.toNat < firstByte x + accessBytes (accessSizeOf x) := by
  simp only [targetAt] at h
  split_ifs at h
  · obtain ⟨haddr, hsize⟩ := registerAt_eq_some h
    rw [haddr, hsize, accessBytes]
    omega
  all_goals
    obtain rfl := Option.some.inj h
    simp only [firstByte, accessSizeOf, accessBytes, BitVec.toNat_ofNat]
    omega

/-- Settles O51: element by element, and range by range. -/
theorem addressMapIsTheTable : Obligations.AddressMapIsTheTable :=
  ⟨targetAt_targetAddr, fun _ => targetAt_eq_none_iff⟩

/-! ## Which transactions end ok (R65) -/

/-- An access that passes the causes (1) and (2) of R65. -/
theorem accessTarget_eq_ok_iff {a : Addr} {size : AccessSize} {x : Target} :
    accessTarget a size = .ok x ↔
      targetAt a = some x ∧ size = accessSizeOf x ∧ (size = .word → a.toNat % 4 = 0) := by
  unfold accessTarget
  cases targetAt a <;> grind

theorem readTarget_eq_ok_iff {a : Addr} {size : AccessSize} {x : Target} :
    readTarget a size = .ok x ↔ accessTarget a size = .ok x ∧ readable x = true := by
  unfold readTarget
  cases accessTarget a size <;> grind

theorem writeTarget_eq_ok_iff {a : Addr} {size : AccessSize} {v : Word} {x : Target} :
    writeTarget a size v = .ok x ↔
      accessTarget a size = .ok x ∧ writable x = true ∧ withinLimit x v = true := by
  unfold writeTarget
  cases accessTarget a size <;> grind

section
variable {a : Addr} {x : Target}

/-- The byte elements are the two buffers (R61, R64). -/
theorem accessSizeOf_eq (h : targetAt a = some x) : accessSizeOf x = if a.toNat < 0x10000 then .word else .byte := by
  have hb := targetAt_bounds h
  cases x <;> simp [firstByte, accessSizeOf, accessBytes] at hb ⊢ <;> omega

theorem readable_iff (h : targetAt a = some x) : readable x = true ↔ 4 ≤ a.toNat := by
  have hb := targetAt_bounds h
  cases x <;> simp [firstByte, accessSizeOf, accessBytes, readable] at hb ⊢ <;> omega

theorem writable_iff (h : targetAt a = some x) : writable x = true ↔
    a.toNat < 0x4 ∨ (0xC ≤ a.toNat ∧ a.toNat < 0x18) ∨ (0x400 ≤ a.toNat ∧ a.toNat < 0x800) ∨ 0x10000 ≤ a.toNat := by
  have hb := targetAt_bounds h
  cases x <;> simp [firstByte, accessSizeOf, accessBytes, writable] at hb ⊢ <;> omega

theorem withinLimit_iff (h : targetAt a = some x) (v : Word) : withinLimit x v = true ↔
    (0xC ≤ a.toNat ∧ a.toNat < 0x10 → v.toNat ≤ Config.textCap) ∧
    (0x10 ≤ a.toNat ∧ a.toNat < 0x14 → v.toNat ≤ Config.bitCap) := by
  have hb := targetAt_bounds h
  cases x <;> simp [firstByte, accessSizeOf, accessBytes, withinLimit] at hb ⊢ <;> omega

theorem readTarget_ok_iff {size : AccessSize} : (∃ x, readTarget a size = .ok x) ↔
    (size = .word ∧ a.toNat % 4 = 0 ∧ ((0x4 ≤ a.toNat ∧ a.toNat < 0x24) ∨ (0x400 ≤ a.toNat ∧ a.toNat < 0xC00) ∨
      (0x2000 ≤ a.toNat ∧ a.toNat < 0x4000))) ∨
    (size = .byte ∧ 0x10000 ≤ a.toNat ∧ a.toNat < 0x30000) := by
  simp only [readTarget_eq_ok_iff, accessTarget_eq_ok_iff]
  cases h : targetAt a with
  | none => have := targetAt_eq_none_iff.1 h; simp; omega
  | some x =>
    have hmapped : targetAt a ≠ none := by simp [h]
    rw [ne_eq, targetAt_eq_none_iff] at hmapped
    simp only [Option.some.injEq, and_assoc, exists_eq_left', accessSizeOf_eq h, readable_iff h]
    cases size <;> split <;> simp <;> omega

theorem writeTarget_ok_iff {size : AccessSize} {v : Word} : (∃ x, writeTarget a size v = .ok x) ↔
    (size = .word ∧ (a.toNat = 0 ∨ (a.toNat = 0xC ∧ v.toNat ≤ Config.textCap) ∨
      (a.toNat = 0x10 ∧ v.toNat ≤ Config.bitCap) ∨ a.toNat = 0x14 ∨
      (a.toNat % 4 = 0 ∧ 0x400 ≤ a.toNat ∧ a.toNat < 0x800))) ∨
    (size = .byte ∧ 0x10000 ≤ a.toNat ∧ a.toNat < 0x30000) := by
  simp only [writeTarget_eq_ok_iff, accessTarget_eq_ok_iff]
  cases h : targetAt a with
  | none => have := targetAt_eq_none_iff.1 h; simp; omega
  | some x =>
    have hmapped : targetAt a ≠ none := by simp [h]
    rw [ne_eq, targetAt_eq_none_iff] at hmapped
    simp only [Option.some.injEq, and_assoc, exists_eq_left', accessSizeOf_eq h, writable_iff h, withinLimit_iff h]
    cases size <;> split <;> simp <;> omega

end

/-! ## One event of the script -/

theorem step_of_pending {s : State} {e : HostEvent} {rest : List HostEvent} (h : s.pending = e :: rest) :
    step s = perform e { s with pending := rest } := by
  rw [step, stepPending, h]

/-- A command word leaves the host agent's side alone. -/
theorem afterWord_hostSide (w : Word) (s : State) : (afterWord w s).hostSide = s.hostSide := by
  obtain ⟨i, -, h⟩ | ⟨_, -, h⟩ := afterWord_cases w s <;> rw [h]
  · exact afterCommand_hostSide i s
  · rfl

/-- A store leaves the host agent's side alone. -/
theorem storeTarget_hostSide (s : State) (v : Word) (x : Target) : (storeTarget s v x).hostSide = s.hostSide := by
  cases x <;> rfl

theorem pending_of_hostSide {s t : State} (h : t.hostSide = s.hostSide) : t.pending = s.pending :=
  congrArg Prod.fst h

theorem perform_read_ok {a : Addr} {size : AccessSize} {x : Target} (h : readTarget a size = .ok x) (s : State) :
    perform (.read a size) s = .next (s.respond (.data (readValue s x))) := by
  simp only [perform, hostRead, h]

theorem perform_write_ok {a : Addr} {size : AccessSize} {v : Word} {x : Target} (h : writeTarget a size v = .ok x)
    (hx : x ≠ .cmd) (s : State) : perform (.write a size v) s = .next ((storeTarget s v x).respond .wrote) := by
  cases x with
  | cmd => exact absurd rfl hx
  | _ => simp only [perform, hostWrite, h]

theorem perform_read_error {a : Addr} {size : AccessSize} {r : HostError} (h : readTarget a size = .error r) (s : State) :
    perform (.read a size) s =
      .next ({ s with draws := s.draws + 1 }.respond (.herr (some (Config.herrData s.draws)))) := by
  simp only [perform, hostRead, h]

theorem perform_write_error {a : Addr} {size : AccessSize} {v : Word} {r : HostError}
    (h : writeTarget a size v = .error r) (s : State) :
    perform (.write a size v) s = .next (s.respond (.herr none)) := by
  simp only [perform, hostWrite, h]

/-- A write that has a target ends ok whatever a command it starts does (R11), and the script goes on. -/
theorem perform_write_wrote {a : Addr} {size : AccessSize} {v : Word} {x : Target} (h : writeTarget a size v = .ok x)
    (s : State) : ∃ t, perform (.write a size v) s = .next t ∧ t.pending = s.pending ∧ t.response = some .wrote := by
  by_cases hx : x = .cmd
  · subst hx
    refine ⟨(afterWord v s).respond .wrote, ?_, pending_of_hostSide (t := afterWord v s) (afterWord_hostSide v s), rfl⟩
    simp only [perform, hostWrite, h, issueCommand_eq, respondTo]
  · exact ⟨_, perform_write_ok h hx s, pending_of_hostSide (t := storeTarget s v x) (storeTarget_hostSide s v x), rfl⟩

/-- Settles O52: a transaction ends ok exactly when it has a target, and it has one exactly at the listed addresses. -/
theorem transactionsEndOkExactly : Obligations.TransactionsEndOkExactly := by
  intro s rest a size v
  refine ⟨fun hp => ?_, fun hp => ?_⟩ <;> rw [step_of_pending hp]
  · cases h : readTarget a size with
    | ok x =>
      refine ⟨_, perform_read_ok h _, rfl, rfl, ?_⟩
      rw [if_pos (readTarget_ok_iff.1 ⟨x, h⟩)]
      exact ⟨_, rfl⟩
    | error r =>
      refine ⟨_, perform_read_error h _, rfl, rfl, ?_⟩
      rw [if_neg (mt readTarget_ok_iff.2 (by simp [h]))]
      exact ⟨_, rfl⟩
  · cases h : writeTarget a size v with
    | ok x =>
      obtain ⟨t, ht, hrest, hwrote⟩ := perform_write_wrote h { s with pending := rest }
      refine ⟨t, ht, hrest, ?_⟩
      rwa [if_pos (writeTarget_ok_iff.1 ⟨x, h⟩)]
    | error r =>
      refine ⟨_, perform_write_error h _, rfl, ?_⟩
      rw [if_neg (mt writeTarget_ok_iff.2 (by simp [h]))]
      exact ⟨⟨_, rfl⟩, rfl⟩

/-! ## Reading and writing an element at its address -/

/-- The word elements are aligned (R61, R64). -/
theorem firstByte_aligned {x : Target} (h : accessSizeOf x = .word) : firstByte x % 4 = 0 := by
  cases x with
  | text | bitsb => cases h
  | freq | codeLen | codeBits => simp only [firstByte]; omega
  | _ => rfl

theorem accessTarget_targetAddr (x : Target) : accessTarget (targetAddr x) (accessSizeOf x) = .ok x :=
  accessTarget_eq_ok_iff.2 ⟨targetAt_targetAddr x, rfl, fun h => toNat_targetAddr x ▸ firstByte_aligned h⟩

theorem step_rdEvent {s : State} {x : Target} {rest : List HostEvent} (h : s.pending = rdEvent x :: rest)
    (hread : readable x = true) :
    step s = .next { s with pending := rest, response := some (.data (readValue s x)) } := by
  rw [step_of_pending h, rdEvent, perform_read_ok (readTarget_eq_ok_iff.2 ⟨accessTarget_targetAddr x, hread⟩)]
  have hvalue : readValue { s with pending := rest } x = readValue s x := by cases x <;> rfl
  rw [hvalue]
  rfl

theorem step_wrEvent {s : State} {x : Target} {v : Word} {rest : List HostEvent} (h : s.pending = wrEvent x v :: rest)
    (hwrite : writable x = true) (hlimit : withinLimit x v = true) (hx : x ≠ .cmd) :
    step s = .next ((storeTarget { s with pending := rest } v x).respond .wrote) := by
  rw [step_of_pending h, wrEvent,
    perform_write_ok (writeTarget_eq_ok_iff.2 ⟨accessTarget_targetAddr x, hwrite, hlimit⟩) hx]

/-- NSYM reads as the register, zero-extended (R32). -/
theorem nsymWord_eq (b : Block) : b.nsymWord = b.nsym.setWidth 32 :=
  (BitVec.setWidth_eq_append (by decide)).symm

/-- Settles O53: element by element, from what a read of a readable element answers. -/
theorem hostReadsReturnTheElement : Obligations.HostReadsReturnTheElement := by
  intro s rest
  refine ⟨?_, ?_, ?_, ?_, ?_, fun h => ?_, ?_, ?_, fun b => ?_, fun b => ?_, fun b w => ?_, fun i => ?_, fun b => ?_⟩
  case refine_6 => rw [← nsymWord_eq]; exact step_rdEvent h rfl
  all_goals exact fun h => step_rdEvent h rfl

/-- Settles O54: what each store changes, and what is read after it (R63). -/
theorem hostWritesStoreTheElement : Obligations.HostWritesStoreTheElement := by
  intro s v rest
  refine ⟨fun h hv => ?_, fun h hv => ?_, fun h => ?_, fun x h => ?_, fun i h => ?_, fun b h => ?_⟩
  · exact step_wrEvent h rfl (decide_eq_true hv) nofun
  · exact step_wrEvent h rfl (decide_eq_true hv) nofun
  · exact step_wrEvent h rfl rfl nofun
  · refine ⟨_, step_wrEvent h rfl rfl nofun, fun y => ?_⟩
    rw [tableGet_set]
    simp only [eq_comm]
  · refine ⟨_, step_wrEvent h rfl rfl nofun, fun a => ?_⟩
    rw [Memory.byteAt_write, BitVec.setWidth_eq_extractLsb' (by decide)]
    simp only [eq_comm, State.textAt]
  · refine ⟨_, step_wrEvent h rfl rfl nofun, fun t ht => ?_, fun a ha => ?_⟩
    · rw [← Memory.getMsbD_byteAt _ _ _ ht, Memory.byteAt_write, if_pos rfl]
      simp [BitVec.getMsbD, ht]
      omega
    · rw [Memory.byteAt_write, if_neg (Ne.symm ha)]
      rfl

end Sys2Proof.Machine

/-! SUPPORT. The encodings of 30_encoding.md: the command words (R96, R97), the code windows (R101), and what the
pseudo-operations of a host script load (R108 to R110). -/

namespace Sys2Proof.Machine

/-! ## Command words (R96, R97) -/

theorem mem_allCommands (i : Instr) : i ∈ allCommands := by
  cases i with
  | tbld c => revert c; decide
  | bdec l c => revert l c; decide
  | _ => decide

theorem decode_encode (i : Instr) : decode (encode i) = .ok i :=
  have hall : ∀ j ∈ allCommands, decode (encode j) = .ok j := by decide
  hall i (mem_allCommands i)

theorem decode_eq_ok_iff {w : Word} {i : Instr} : decode w = .ok i ↔ w = encode i :=
  ⟨eq_encode_of_decode, fun h => h ▸ decode_encode i⟩

/-- The list of the ten legal words, each with its command, holds exactly the encoder's words. -/
theorem mem_commandWords_iff {w : Word} {i : Instr} :
    (w, i) ∈ allCommands.map (fun j => (encode j, j)) ↔ w = encode i := by
  simp only [List.mem_map, Prod.mk.injEq]
  exact ⟨fun ⟨j, _, hw, hj⟩ => hj ▸ hw.symm, fun h => ⟨i, mem_allCommands i, h.symm, rfl⟩⟩

/-- Settles O1: both lists of legal words are the encoder's, which the decoder inverts. -/
theorem exactlyTenCommandWordsDecode : Obligations.ExactlyTenCommandWordsDecode :=
  ⟨fun _ _ => decode_eq_ok_iff.trans mem_commandWords_iff.symm, fun _ _ => decode_eq_ok_iff⟩

/-- Settles O2: the legal words are the encoder's, the other four are decoded. -/
theorem sampleCommandWordsDecode : Obligations.SampleCommandWordsDecode :=
  ⟨decode_encode .fcnt, decode_encode (.tbld true), decode_encode (.bdec true false), decode_encode .clr,
    by decide, by decide, by decide, by decide⟩

/-- The four causes of R97, on the bits of the word. -/
def IllegalCause (w : Word) : Prop :=
  w.extractLsb' 6 26 ≠ 0#26 ∨ w.extractLsb' 0 4 = 0#4 ∨ 7 ≤ (w.extractLsb' 0 4).toNat ∨
    (w.getLsbD 4 = true ∧ w.extractLsb' 0 4 ≠ 5#4) ∨
    (w.getLsbD 5 = true ∧ w.extractLsb' 0 4 ≠ 2#4 ∧ w.extractLsb' 0 4 ≠ 5#4)

/-- No command's word has a cause of R97. -/
theorem not_illegalCause_encode (i : Instr) : ¬ IllegalCause (encode i) :=
  have hall : ∀ j ∈ allCommands, ¬ IllegalCause (encode j) := by unfold IllegalCause; decide
  hall i (mem_allCommands i)

theorem afterWord_of_illegalCause {w : Word} (h : IllegalCause w) (s : State) : afterWord w s = illegalWord w s := by
  obtain ⟨i, rfl, -⟩ | ⟨_, -, hw⟩ := afterWord_cases w s
  · exact absurd h (not_illegalCause_encode i)
  · exact hw

/-- A word written to `CMD` runs, and the write ends ok (R11, R201). -/
theorem step_commandWrite {s : State} {w : Word} {rest : List HostEvent} (h : s.pending = commandWrite w :: rest) :
    step s = .next ((afterWord w { s with pending := rest }).respond .wrote) := by
  have hcmd : writeTarget 0#18 .word w = .ok .cmd :=
    writeTarget_eq_ok_iff.2 ⟨accessTarget_targetAddr .cmd, rfl, rfl⟩
  rw [step_of_pending h]
  simp only [commandWrite, perform, hostWrite, hcmd, issueCommand_eq, respondTo]

/-- Settles O3: a word with a cause of R97 is no command's word, so it only raises IllegalCommand. -/
theorem illegalWordOnlyRecordsIllegalCommand : Obligations.IllegalWordOnlyRecordsIllegalCommand := by
  intro s w rest hp hcause
  rw [step_commandWrite hp, afterWord_of_illegalCause hcause]
  rfl

/-! ## The code windows (R101) -/

theorem bitsToNat_concat (bs : BitString) (b : Bool) : bitsToNat (bs ++ [b]) = 2 * bitsToNat bs + b.toNat := by
  simp [bitsToNat]

/-- The bits of a numeral, the last one least significant. -/
theorem testBit_bitsToNat (bs : BitString) (i : Nat) : (bitsToNat bs).testBit i = bs.reverse[i]?.getD false := by
  induction bs using List.reverseRecOn generalizing i with
  | nil => simp [bitsToNat]
  | append_singleton bs b ih =>
    rw [bitsToNat_concat, ← Nat.bit_val, List.reverse_concat]
    cases i with
    | zero => simp
    | succ i => rw [Nat.testBit_bit_succ, ih, List.getElem?_cons_succ]

/-- Bit `n - 1 - t` of the `n`-bit word of `n` bits is the `t`-th of them. -/
theorem getLsbD_ofNat_bitsToNat {n : Nat} {bs : BitString} (h : bs.length = n) {t : Nat} (ht : t < n) :
    (BitVec.ofNat n (bitsToNat bs)).getLsbD (n - 1 - t) = bs[t]?.getD false := by
  have hrev : bs.length - 1 - (n - 1 - t) = t := by omega
  have hlt : n - 1 - t < n := by omega
  rw [BitVec.getLsbD_ofNat, testBit_bitsToNat, List.getElem?_reverse (by omega), hrev, decide_eq_true hlt, Bool.true_and]

/-- Filling a list up with `false` changes no bit's value. -/
theorem getElem?_append_false (bs : BitString) (n t : Nat) :
    (bs ++ List.replicate n false)[t]?.getD false = bs[t]?.getD false := by
  rw [List.getElem?_append, List.getElem?_replicate]
  split
  · rfl
  · rw [List.getElem?_eq_none (by omega)]
    split <;> rfl

/-- Word `w` of `CODEBITS` shows the codeword's bits from `32 w` on, left-aligned (R101). -/
theorem getLsbD_codeBitsWord (code : Vector BitString 256) (b : Byte) (w : Nat) {t : Nat} (ht : t < 32) :
    (codeBitsWord code b w).getLsbD (31 - t) = (tableGet code b)[32 * w + t]?.getD false := by
  unfold codeBitsWord
  rw [getLsbD_ofNat_bitsToNat (by simp) ht, getElem?_append_false, List.getElem?_take_of_lt ht, List.getElem?_drop]

/-- `CODELEN` shows the length of a codeword that fits its 8-bit field (R37, R101). -/
theorem setWidth_codeLenField {code : Vector BitString 256} {b : Byte} (h : (tableGet code b).length ≤ 255) :
    (codeLenField code b).setWidth 32 = BitVec.ofNat 32 (tableGet code b).length := by
  apply BitVec.eq_of_toNat_eq
  rw [codeLenField, BitVec.toNat_setWidth, BitVec.toNat_ofNat, BitVec.toNat_ofNat]
  omega

/-- Settles O50: bit `t` of the codeword is in window word `t / 32` at `t % 32`. -/
theorem codeWindowsShowTheCodeword : Obligations.CodeWindowsShowTheCodeword := by
  intro s b hlen
  refine ⟨setWidth_codeLenField hlen, fun t ht => ?_⟩
  have hword : (BitVec.ofNat 3 (t / 32)).toNat = t / 32 := by rw [BitVec.toNat_ofNat]; omega
  rw [readValue, hword, getLsbD_codeBitsWord _ _ _ (by omega), Nat.div_add_mod]

/-! ## A sequence of writes of a host script -/

/-- The `wr` lines of a list of elements and values (R105). -/
def writeEvents (ws : List (Target × Word)) : List HostEvent := ws.map (fun p => wrEvent p.1 p.2)

theorem writeEvents_append (ws ws' : List (Target × Word)) :
    writeEvents (ws ++ ws') = writeEvents ws ++ writeEvents ws' := List.map_append

/-- What a list of writes stores, the first one first. -/
def storeAll (ws : List (Target × Word)) (s : State) : State := ws.foldl (fun s p => storeTarget s p.2 p.1) s

@[simp] theorem storeAll_cons (x : Target) (v : Word) (ws : List (Target × Word)) (s : State) :
    storeAll ((x, v) :: ws) s = storeAll ws (storeTarget s v x) := rfl

theorem storeAll_append (ws ws' : List (Target × Word)) (s : State) :
    storeAll (ws ++ ws') s = storeAll ws' (storeAll ws s) := List.foldl_append

theorem storeTarget_respond (s : State) (v : Word) (x : Target) (r : HostResponse) :
    storeTarget (s.respond r) v x = (storeTarget s v x).respond r := by cases x <;> rfl

theorem storeAll_respond (ws : List (Target × Word)) (s : State) (r : HostResponse) :
    storeAll ws (s.respond r) = (storeAll ws s).respond r := by
  induction ws generalizing s with
  | nil => rfl
  | cons p ws ih => rw [storeAll_cons, storeTarget_respond, ih, storeAll_cons]

/-- A write that ends ok and stores: to a writable element other than `CMD`, within its limit (R65). -/
def Storable (x : Target) (v : Word) : Prop := writable x = true ∧ withinLimit x v = true ∧ x ≠ .cmd

theorem perform_wrEvent {x : Target} {v : Word} (h : Storable x v) (s : State) :
    perform (wrEvent x v) s = .next ((storeTarget s v x).respond .wrote) := by
  obtain ⟨hwrite, hlimit, hcmd⟩ := h
  exact perform_write_ok (writeTarget_eq_ok_iff.2 ⟨accessTarget_targetAddr x, hwrite, hlimit⟩) hcmd s

/-- Writes that end ok one by one end ok one after another, and all of them are stored. -/
theorem performWrites_writeEvents {ws : List (Target × Word)} (hne : ws ≠ []) (hok : ∀ p ∈ ws, Storable p.1 p.2)
    (s : State) : performWrites (writeEvents ws) s = some ((storeAll ws s).respond .wrote) := by
  induction ws generalizing s with
  | nil => exact absurd rfl hne
  | cons p ws ih =>
    obtain ⟨hp, hws⟩ := List.forall_mem_cons.1 hok
    rw [writeEvents, List.map_cons, performWrites]
    simp only [perform_wrEvent hp, State.respond_response, if_true]
    cases ws with
    | nil => rfl
    | cons q ws => exact (ih (List.cons_ne_nil q ws) hws _).trans (by rw [storeAll_respond]; rfl)

/-! ## Writes to consecutive bytes of a buffer -/

/-- The writes of `bytes` to the elements of a byte window from index `k` on. -/
def byteStores (at' : BitVec 16 → Target) (k : Nat) (bytes : List Byte) : List (Target × Word) :=
  (bytes.zipIdx k).map (fun (b, i) => (at' (BitVec.ofNat 16 i), b.setWidth 32))

theorem byteWrites_eq (at' : BitVec 16 → Target) (bytes : List Byte) :
    byteWrites at' bytes = writeEvents (byteStores at' 0 bytes) := by
  rw [byteWrites, writeEvents, byteStores, List.map_map]
  rfl

section
variable {at' : BitVec 16 → Target}

theorem storable_of_mem_byteStores (hat : ∀ i v, Storable (at' i) v) {k : Nat} {bytes : List Byte}
    {p : Target × Word} (hp : p ∈ byteStores at' k bytes) : Storable p.1 p.2 := by
  obtain ⟨_, _, rfl⟩ := List.mem_map.1 hp
  exact hat _ _

/-! `withBuffer` is the state by the contents of the buffer behind the window. -/

variable {withBuffer : Memory → State}
  (hstore : ∀ m v i, storeTarget (withBuffer m) v (at' i) = withBuffer (m.write i.toNat (v.setWidth 8)))
include hstore

/-- Writes to the window store the bytes into the buffer. -/
theorem storeAll_byteStores {k : Nat} {bytes : List Byte} (h : k + bytes.length ≤ 65536) (m : Memory) :
    storeAll (byteStores at' k bytes) (withBuffer m) = withBuffer (m.putBytes k bytes) := by
  induction bytes generalizing k m with
  | nil => rfl
  | cons b bytes ih =>
    rw [List.length_cons] at h
    have hk : (BitVec.ofNat 16 k).toNat = k := by rw [BitVec.toNat_ofNat]; omega
    have hb : (b.setWidth 32).setWidth 8 = b := by simp
    rw [byteStores, List.zipIdx_cons, List.map_cons, storeAll_cons, hstore, hk, hb]
    exact ih (by omega) _

/-- Bytes written to a window and then a length that is within its limit. -/
theorem performWrites_byteWrites (hat : ∀ i v, Storable (at' i) v) {bytes : List Byte}
    (h : bytes.length ≤ 65536) {x : Target} {v : Word} (hx : Storable x v) (m : Memory) :
    performWrites (byteWrites at' bytes ++ [wrEvent x v]) (withBuffer m) =
      some ((storeTarget (withBuffer (m.putBytes 0 bytes)) v x).respond .wrote) := by
  have hok : ∀ p ∈ byteStores at' 0 bytes ++ [(x, v)], Storable p.1 p.2 := by
    intro p hp
    rcases List.mem_append.1 hp with hp | hp
    · exact storable_of_mem_byteStores hat hp
    · obtain rfl := List.mem_singleton.1 hp
      exact hx
  have hws := performWrites_writeEvents (by simp) hok (withBuffer m)
  rw [writeEvents_append, ← byteWrites_eq, storeAll_append, storeAll_byteStores hstore (by omega)] at hws
  exact hws

end

/-- A length within the capacity of a buffer, in bytes or in bits, fits its register (R21, R22). -/
theorem toNat_ofNat_length {n : Nat} (h : n ≤ 524288) : (BitVec.ofNat 32 n).toNat = n := by
  rw [BitVec.toNat_ofNat]
  omega

/-- Reading a list index by index gives it back. -/
theorem map_range_eq_self {α : Type} {l : List α} {f : Nat → α} (h : ∀ i (hi : i < l.length), f i = l[i]) :
    (List.range l.length).map f = l :=
  List.ext_getElem (by simp) fun i _ hi => by rw [List.getElem_map, List.getElem_range, h i hi]

/-! ## The `text` line (R108) -/

/-- What `putBytes` from index 0 leaves to be read. -/
theorem Memory.byteAt_putBytes_zero (free : Nat → Byte) (m : Memory) (bs : List Byte) (x : Nat) :
    (m.putBytes 0 bs).byteAt free x = bs[x]?.getD (m.byteAt free x) := by
  rw [Memory.byteAt_putBytes, if_pos (Nat.zero_le x), Nat.sub_zero]

theorem performWrites_textEvents (s : State) {T : List Byte} (h : T.length ≤ Config.textCap) :
    performWrites (textEvents T) s = some { s with
      text := s.text.putBytes 0 T, textLen := BitVec.ofNat 32 T.length, response := some .wrote } := by
  have hlen := toNat_ofNat_length (h.trans (by decide))
  exact performWrites_byteWrites (at' := .text) (withBuffer := fun m => { s with text := m }) (fun _ _ _ => rfl)
    (fun _ _ => ⟨rfl, rfl, nofun⟩) h (x := .textLen) ⟨rfl, decide_eq_true (by rwa [hlen]), nofun⟩ s.text

/-- Settles O55: the line stores the bytes of the text and its length, and they are read back byte by byte. -/
theorem textLineLoadsTheText : Obligations.TextLineLoadsTheText := by
  intro s T h
  have hlen := toNat_ofNat_length (h.trans (by decide))
  refine ⟨_, performWrites_textEvents s h, ?_, rfl, fun i hi => ?_⟩
  · rw [State.textOperand, hlen]
    refine map_range_eq_self fun i hi => ?_
    rw [State.textAt, Memory.byteAt_putBytes_zero, List.getElem?_eq_getElem hi, Option.getD_some]
  · rw [State.textAt, Memory.byteAt_putBytes_zero, List.getElem?_eq_none hi]
    rfl

/-! ## The `bits` line (R109) -/

@[simp] theorem length_packBits (B : BitString) : (packBits B).length = (B.length + 7) / 8 := by simp [packBits]

/-- After the packed bytes of a bit string are written, its bits are read, then zeros to the end of the last byte
(R66, R109). -/
theorem Memory.bitAt_putBytes_packBits (free : Nat → Byte) (m : Memory) (B : BitString) {j : Nat}
    (hj : j < 8 * ((B.length + 7) / 8)) : (m.putBytes 0 (packBits B)).bitAt free j = B[j]?.getD false := by
  have hbyte : j / 8 < (B.length + 7) / 8 := by omega
  have hbit : j % 8 < 8 := Nat.mod_lt _ (by omega)
  rw [Memory.bitAt, Memory.byteAt_putBytes_zero, packBits, List.getElem?_map, List.getElem?_range hbyte,
    Option.map_some, Option.getD_some, getMsbD_overlayByte _ (by simp) hbit, List.getElem?_take_of_lt hbit,
    List.getElem?_drop, Nat.div_add_mod]
  simp

theorem performWrites_bitsEvents (s : State) {B : BitString} (h : B.length ≤ Config.bitCap) :
    performWrites (bitsEvents B) s = some { s with
      bits := s.bits.putBytes 0 (packBits B), bitLen := BitVec.ofNat 32 B.length, response := some .wrote } := by
  have hbits : B.length ≤ 524288 := h
  have hlen := toNat_ofNat_length hbits
  have hbytes : (packBits B).length ≤ 65536 := by rw [length_packBits]; omega
  exact performWrites_byteWrites (at' := .bitsb) (withBuffer := fun m => { s with bits := m }) (fun _ _ _ => rfl)
    (fun _ _ => ⟨rfl, rfl, nofun⟩) hbytes (x := .bitLen) ⟨rfl, decide_eq_true (by rwa [hlen]), nofun⟩ s.bits

/-- Settles O56: the line stores the packed bytes and the bit count; the bits and their padding are read back bit by bit. -/
theorem bitsLineLoadsTheBits : Obligations.BitsLineLoadsTheBits := by
  intro s B h
  have hlen := toNat_ofNat_length h
  refine ⟨_, performWrites_bitsEvents s h, ?_, rfl, fun j hj hpad => ?_, fun b hb => ?_⟩
  · rw [State.bitsOperand, hlen]
    refine map_range_eq_self fun j hj => ?_
    rw [State.bitAt, Memory.bitAt_putBytes_packBits _ _ _ (by omega), List.getElem?_eq_getElem hj, Option.getD_some]
  · rw [State.bitAt, Memory.bitAt_putBytes_packBits _ _ _ hpad, List.getElem?_eq_none hj, Option.getD_none]
  · rw [State.bitsbAt, Memory.byteAt_putBytes_zero, List.getElem?_eq_none (by rwa [length_packBits])]
    rfl

/-! ## The `freq` line (R110) -/

/-- The table with the entries of the symbols `bs` replaced by their values in `val`. -/
def setEntries (val : Byte → Word) (bs : List Byte) (F : Vector Word 256) : Vector Word 256 :=
  bs.foldl (fun F b => tableSet F b (val b)) F

theorem tableGet_setEntries (val : Byte → Word) (bs : List Byte) (F : Vector Word 256) (x : Byte) :
    tableGet (setEntries val bs F) x = if x ∈ bs then val x else tableGet F x := by
  induction bs generalizing F with
  | nil => rfl
  | cons b bs ih =>
    refine (ih _).trans ?_
    rw [tableGet_set]
    by_cases hx : b = x
    · subst hx; simp
    · simp [hx, Ne.symm hx]

/-- The writes of the entries of the symbols `bs`. -/
def freqStores (val : Byte → Word) (bs : List Byte) : List (Target × Word) := bs.map (fun b => (.freq b, val b))

/-- At least one write to `FREQ` stores its entry and clears both valid flags (R36). -/
theorem storeAll_freqStores (val : Byte → Word) {bs : List Byte} (hne : bs ≠ []) (s : State) :
    storeAll (freqStores val bs) s = { s with freq := setEntries val bs s.freq }.invalidate := by
  induction bs generalizing s with
  | nil => exact absurd rfl hne
  | cons b bs ih =>
    cases bs with
    | nil => rfl
    | cons c bs => exact ih (List.cons_ne_nil c bs) _

theorem freqEvents_eq (entries : List (Byte × Word)) :
    freqEvents entries = writeEvents (freqStores (freqValue entries) allBytes) := by
  rw [freqEvents, writeEvents, freqStores, allBytes, List.map_map, List.map_map]
  rfl

theorem performWrites_freqEvents (entries : List (Byte × Word)) (s : State) : ∃ F,
    performWrites (freqEvents entries) s = some ({ s with freq := F }.invalidate.respond .wrote) ∧
      ∀ b, tableGet F b = freqValue entries b := by
  have hbytes : allBytes ≠ [] := List.ne_nil_of_length_pos (by simp)
  have hne : freqStores (freqValue entries) allBytes ≠ [] := mt List.map_eq_nil_iff.1 hbytes
  have hok : ∀ p ∈ freqStores (freqValue entries) allBytes, Storable p.1 p.2 := by
    intro p hp
    obtain ⟨b, -, rfl⟩ := List.mem_map.1 hp
    exact ⟨rfl, rfl, nofun⟩
  refine ⟨setEntries (freqValue entries) allBytes s.freq, ?_, fun b => ?_⟩
  · rw [freqEvents_eq, performWrites_writeEvents hne hok, storeAll_freqStores _ hbytes]
  · rw [tableGet_setEntries, if_pos (mem_allBytes b)]

/-- Settles O57: the line writes the entry of every symbol. -/
theorem freqLineLoadsTheTable : Obligations.FreqLineLoadsTheTable := by
  intro s entries
  obtain ⟨F, hwrites, hF⟩ := performWrites_freqEvents entries s
  exact ⟨_, hwrites, hF, rfl⟩

end Sys2Proof.Machine

/-! SUPPORT. The code assigner of 42_code_assigner.md: the traversal visits every node of the tree once and records, at each
leaf, the path to it. -/

namespace Sys2Proof.Machine

/-! ## Paths -/

theorem descend_append (nodes : List Node) (n : Nat) (p q : BitString) :
    descend nodes n (p ++ q) = (descend nodes n p).bind (descend nodes · q) := by
  induction p generalizing n with
  | nil => rfl
  | cons b p ih =>
    simp only [List.cons_append, descend]
    split
    · rfl
    · exact ih _

/-- A path goes on from an internal node to the child of the next bit (R151). -/
theorem descend_concat {nodes : List Node} {top n : Nat} {p : BitString} (hp : descend nodes top p = some n)
    (hn : (nodeAt nodes n).leaf = false) (b : Bool) :
    descend nodes top (p ++ [b]) = some (childFor nodes n b) := by
  simp [descend_append, hp, descend, hn]

/-! ## One visit of the traversal (R152) -/

/-- What the visit of node `n`, reached by the path `p`, puts on the stack. -/
def pushed (nodes : List Node) (n : Nat) (p : BitString) : List (Nat × BitString) :=
  if (nodeAt nodes n).leaf then []
  else [(childFor nodes n false, p ++ [false]), (childFor nodes n true, p ++ [true])]

/-- The code map after the visit of node `n`, reached by the path `p`. -/
def recorded (nodes : List Node) (n : Nat) (p : BitString) (M : Vector BitString 256) : Vector BitString 256 :=
  if (nodeAt nodes n).leaf then tableSet M (nodeAt nodes n).sym p else M

theorem traverse_cons (nodes : List Node) (fuel n : Nat) (p : BitString) (stack : List (Nat × BitString))
    (M : Vector BitString 256) :
    traverse nodes (fuel + 1) ((n, p) :: stack) M =
      traverse nodes fuel (pushed nodes n p ++ stack) (recorded nodes n p M) := by
  rw [traverse, pushed, recorded]
  cases (nodeAt nodes n).leaf <;> rfl

theorem pushed_map_fst (nodes : List Node) (n : Nat) (p : BitString) :
    (pushed nodes n p).map (·.1) = (nodeAt nodes n).children := by
  rw [pushed, Node.children]
  cases (nodeAt nodes n).leaf <;> rfl

/-- What a visit puts on the stack are nodes with their paths. -/
theorem descend_of_mem_pushed {nodes : List Node} {top n : Nat} {p : BitString} (hp : descend nodes top p = some n)
    {e : Nat × BitString} (he : e ∈ pushed nodes n p) : descend nodes top e.2 = some e.1 := by
  cases hleaf : (nodeAt nodes n).leaf with
  | true => simp [pushed, hleaf] at he
  | false =>
    have he' : e = (childFor nodes n false, p ++ [false]) ∨ e = (childFor nodes n true, p ++ [true]) := by
      simpa [pushed, hleaf] using he
    rcases he' with rfl | rfl <;> exact descend_concat hp hleaf _

theorem recorded_of_leaf {nodes : List Node} {n : Nat} (h : (nodeAt nodes n).leaf = true) (p : BitString)
    (M : Vector BitString 256) : recorded nodes n p M = tableSet M (nodeAt nodes n).sym p := if_pos h

/-- A visit changes no entry but that of the leaf it is at. -/
theorem tableGet_recorded_of_not {nodes : List Node} {n : Nat} {x : Byte}
    (h : ¬ ((nodeAt nodes n).leaf = true ∧ (nodeAt nodes n).sym = x)) (p : BitString) (M : Vector BitString 256) :
    tableGet (recorded nodes n p M) x = tableGet M x := by
  cases hleaf : (nodeAt nodes n).leaf with
  | true => rw [recorded_of_leaf hleaf, tableGet_set_other _ _ fun hx => h ⟨hleaf, hx⟩]
  | false => simp [recorded, hleaf]

/-- The induction over the visits: what one visit keeps of the visited nodes, the stack and the code map holds when the stack
is empty, provided no more than `N` nodes are ever seen and the fuel is enough for them. -/
theorem traverse_induction {nodes : List Node} {N : Nat}
    {P : List Nat → List (Nat × BitString) → Vector BitString 256 → Prop}
    (visit : ∀ visited n p stack M, P visited ((n, p) :: stack) M →
      P (n :: visited) (pushed nodes n p ++ stack) (recorded nodes n p M))
    (bound : ∀ visited stack M, P visited stack M → visited.length + stack.length ≤ N)
    {fuel : Nat} {visited : List Nat} {stack : List (Nat × BitString)} {M : Vector BitString 256}
    (hfuel : N ≤ fuel + visited.length) (h : P visited stack M) :
    ∃ visited', P visited' [] (traverse nodes fuel stack M) := by
  induction fuel generalizing visited stack M with
  | zero =>
    have hlen := bound _ _ _ h
    obtain rfl : stack = [] := List.length_eq_zero_iff.1 (by omega)
    exact ⟨visited, h⟩
  | succ fuel ih =>
    match stack with
    | [] => exact ⟨visited, h⟩
    | (n, p) :: stack =>
      rw [traverse_cons]
      exact ih (by rw [List.length_cons]; omega) (visit _ _ _ _ _ h)

/-! ## What every visit keeps -/

/-- What holds of the visited nodes, the stack and the code map of the traversal from `top` (R151, R152). -/
structure TraverseInv (nodes : List Node) (top : Nat) (visited : List Nat) (stack : List (Nat × BitString))
    (M : Vector BitString 256) : Prop where
  /-- a node that is seen is the root or a child of a visited one -/
  seen      : (visited ++ stack.map (·.1)).Perm (top :: visited.flatMap (fun n => (nodeAt nodes n).children))
  nodup     : visited.Nodup
  inside    : ∀ n ∈ visited, n < nodes.length
  path      : ∀ e ∈ stack, descend nodes top e.2 = some e.1
  /-- a visited leaf's symbol has the path to the leaf -/
  leaf_code : ∀ n ∈ visited, (nodeAt nodes n).leaf = true →
    descend nodes top (tableGet M (nodeAt nodes n).sym) = some n
  /-- no other symbol has a codeword -/
  no_code   : ∀ x, (∀ n ∈ visited, (nodeAt nodes n).leaf = true → (nodeAt nodes n).sym ≠ x) → tableGet M x = []

theorem traverseInv_start (nodes : List Node) (top : Nat) : TraverseInv nodes top [] [(top, [])] unsetCodes where
  seen := .refl _
  nodup := .nil
  inside    := fun _ h => absurd h List.not_mem_nil
  path := fun e he => by rw [List.mem_singleton.1 he]; rfl
  leaf_code := fun _ h => absurd h List.not_mem_nil
  no_code := fun x _ => tableGet_replicate [] x

section
variable {K total : Nat} {nodes : List Node} {e : QueueEntry} {visited : List Nat} {stack : List (Nat × BitString)}
  {M : Vector BitString 256}

/-- The root and the children of nodes are a node each. -/
theorem MergeInv.root_and_children_nodup (h : MergeInv K total nodes [e]) (hnodup : visited.Nodup)
    (hinside : ∀ n ∈ visited, n < nodes.length) :
    (e.idx :: visited.flatMap (fun n => (nodeAt nodes n).children)).Nodup := by
  have hall : (e.idx :: nodes.flatMap Node.children).Nodup := h.indices.nodup_iff.2 List.nodup_range
  obtain ⟨hroot, hchildren⟩ := List.nodup_cons.1 hall
  refine List.nodup_cons.2 ⟨fun hmem => hroot ?_, List.nodup_flatMap.2 ⟨fun n hn => ?_, ?_⟩⟩
  · obtain ⟨n, hn, hchild⟩ := List.mem_flatMap.1 hmem
    exact List.mem_flatMap.2 ⟨_, nodeAt_mem (hinside n hn), hchild⟩
  · exact (List.nodup_flatMap.1 hchildren).1 _ (nodeAt_mem (hinside n hn))
  · exact hnodup.imp_of_mem fun hn hn' hne m hm hm' => hne (h.parent_unique (hinside _ hn) (hinside _ hn') hm hm')

theorem TraverseInv.nodup_seen (h : MergeInv K total nodes [e]) (ht : TraverseInv nodes e.idx visited stack M) :
    (visited ++ stack.map (·.1)).Nodup :=
  ht.seen.nodup_iff.2 (h.root_and_children_nodup ht.nodup ht.inside)

theorem TraverseInv.lt_of_mem_seen (h : MergeInv K total nodes [e]) (ht : TraverseInv nodes e.idx visited stack M) {m : Nat}
    (hm : m ∈ visited ++ stack.map (·.1)) : m < nodes.length := by
  rcases List.mem_cons.1 (ht.seen.mem_iff.1 hm) with rfl | hm
  · exact h.idx_lt List.mem_cons_self
  · obtain ⟨n, hn, hchild⟩ := List.mem_flatMap.1 hm
    exact (h.arena.children_lt n (ht.inside n hn) m hchild).trans (ht.inside n hn)

/-- No more nodes are seen than there are. -/
theorem TraverseInv.length_le (h : MergeInv K total nodes [e]) (ht : TraverseInv nodes e.idx visited stack M) :
    visited.length + stack.length ≤ nodes.length := by
  have hsub : List.Subperm (visited ++ stack.map (·.1)) (List.range nodes.length) :=
    (ht.nodup_seen h).subperm fun m hm => List.mem_range.2 (ht.lt_of_mem_seen h hm)
  simpa using hsub.length_le

/-- One visit (R152). A codeword recorded before is not overwritten, because each leaf has a symbol of its own. -/
theorem TraverseInv.visit (h : MergeInv K total nodes [e])
    (hsym : ∀ n m, n < K → m < K → (nodeAt nodes n).sym = (nodeAt nodes m).sym → n = m) {n : Nat} {p : BitString}
    (ht : TraverseInv nodes e.idx visited ((n, p) :: stack) M) :
    TraverseInv nodes e.idx (n :: visited) (pushed nodes n p ++ stack) (recorded nodes n p M) := by
  have hnew : n ∉ visited := fun hn =>
    (List.disjoint_of_nodup_append (ht.nodup_seen h)) hn List.mem_cons_self
  have hn : n < nodes.length := ht.lt_of_mem_seen h (by simp)
  have hp : descend nodes e.idx p = some n := ht.path (n, p) List.mem_cons_self
  refine ⟨?_, List.nodup_cons.2 ⟨hnew, ht.nodup⟩, List.forall_mem_cons.2 ⟨hn, ht.inside⟩, fun x hx => ?_,
    List.forall_mem_cons.2 ⟨fun hleaf => ?_, fun m hm hleaf => ?_⟩, fun x hx => ?_⟩
  · rw [List.perm_iff_count]
    intro i
    have hi := ht.seen.count_eq i
    simp only [List.map_cons, List.count_append, List.count_cons] at hi
    simp only [List.map_append, pushed_map_fst, List.flatMap_cons, List.count_append, List.count_cons]
    omega
  · rcases List.mem_append.1 hx with hx | hx
    · exact descend_of_mem_pushed hp hx
    · exact ht.path x (List.mem_cons_of_mem _ hx)
  · rw [recorded_of_leaf hleaf, tableGet_set_same, hp]
  · have hother : ¬ ((nodeAt nodes n).leaf = true ∧ (nodeAt nodes n).sym = (nodeAt nodes m).sym) := fun ⟨hleaf', heq⟩ =>
      hnew (hsym n m ((h.arena.leaf_iff n hn).1 hleaf') ((h.arena.leaf_iff m (ht.inside m hm)).1 hleaf) heq ▸ hm)
    rw [tableGet_recorded_of_not hother, ht.leaf_code m hm hleaf]
  · obtain ⟨hx, hxs⟩ := List.forall_mem_cons.1 hx
    rw [tableGet_recorded_of_not fun ⟨hleaf, heq⟩ => hx hleaf heq, ht.no_code x hxs]

/-- When the stack is empty every node is visited: the root is, and with a node its children are. -/
theorem TraverseInv.mem_visited (h : MergeInv K total nodes [e]) (ht : TraverseInv nodes e.idx visited [] M) {n : Nat}
    (hn : n < nodes.length) : n ∈ visited := by
  have hseen : ∀ m, m ∈ e.idx :: visited.flatMap (fun n => (nodeAt nodes n).children) → m ∈ visited := fun m hm => by
    simpa using ht.seen.mem_iff.2 hm
  have hcount := h.count
  rw [List.length_singleton] at hcount
  induction hd : nodes.length - n using Nat.strong_induction_on generalizing n with
  | _ d ih =>
    rcases Nat.lt_or_ge n (2 * K - 2) with hlt | hge
    · obtain ⟨m, hm, hchild⟩ := h.exists_parent hlt
      have hlt' := h.arena.children_lt m hm n hchild
      have hmem : m ∈ visited := ih (nodes.length - m) (by omega) hm rfl
      exact hseen n (List.mem_cons_of_mem _ (List.mem_flatMap.2 ⟨m, hmem, hchild⟩))
    · have hidx := h.idx_eq
      exact hseen n (List.mem_cons.2 (.inl (by omega)))

end

/-! ## The code map of a table -/

theorem buildTree_snd (F : Vector Word 256) : (buildTree F).2 = freqSymbols F := length_leaves F

theorem buildTree_sym_inj {F : Vector Word 256} {n m : Nat} (hn : n < freqSymbols F) (hm : m < freqSymbols F)
    (h : (nodeAt (buildTree F).1 n).sym = (nodeAt (buildTree F).1 m).sym) : n = m := by
  rcases Nat.lt_trichotomy n m with hlt | heq | hlt
  · exact absurd (congrArg BitVec.toNat h) (buildTree_sym_lt F hlt hm).ne
  · exact heq
  · exact absurd (congrArg BitVec.toNat h) (buildTree_sym_lt F hlt hn).ne'

/-- The symbols of the leaves are the present ones (R131). -/
theorem present_iff_exists_leaf {F : Vector Word 256} {x : Byte} :
    tableGet F x ≠ 0#32 ↔ ∃ n, n < freqSymbols F ∧ (nodeAt (buildTree F).1 n).sym = x := by
  constructor
  · intro hx
    obtain ⟨n, hn, hleaf⟩ := List.mem_iff_getElem.1 (mem_leaves.2 ⟨x, hx, rfl⟩)
    have hn' : n < freqSymbols F := length_leaves F ▸ hn
    refine ⟨n, hn', ?_⟩
    rw [nodeAt_buildTree_of_lt hn', nodeAt_of_lt hn, hleaf, leafNode_sym]
  · rintro ⟨n, hn, rfl⟩
    rw [nodeAt_buildTree_of_lt hn]
    obtain ⟨y, hy, hleaf⟩ := mem_leaves.1 (nodeAt_mem (nodes := leaves F) (length_leaves F ▸ hn))
    rwa [← hleaf, leafNode_sym]

/-- With at least two symbols every leaf's symbol has the path from the root to the leaf, and no other symbol has a
codeword (R151, R152). -/
theorem codeMapOf_eq_paths {F : Vector Word 256} (hF : 2 ≤ freqSymbols F) :
    (∀ n, n < freqSymbols F → descend (buildTree F).1 (root (freqSymbols F))
      (tableGet (codeMapOf F) (nodeAt (buildTree F).1 n).sym) = some n) ∧
    ∀ x, (∀ n, n < freqSymbols F → (nodeAt (buildTree F).1 n).sym ≠ x) → tableGet (codeMapOf F) x = [] := by
  obtain ⟨e, h⟩ := mergeInv_buildTree (F := F) (by omega)
  have hlen : (buildTree F).1.length = 2 * freqSymbols F - 1 := by
    have hcount := h.count
    rw [List.length_singleton] at hcount
    omega
  have hroot : e.idx = root (freqSymbols F) := h.idx_eq.trans (root_eq (by omega)).symm
  have hmap : codeMapOf F =
      traverse (buildTree F).1 (2 * freqSymbols F - 1) [(e.idx, [])] unsetCodes := by
    rw [codeMapOf, assignCodes, buildTree_snd, if_neg (by omega), if_neg (by omega), hroot]
  obtain ⟨visited, ht⟩ := traverse_induction (N := (buildTree F).1.length) (fuel := 2 * freqSymbols F - 1)
    (fun _ _ _ _ _ ht => TraverseInv.visit h (fun _ _ => buildTree_sym_inj) ht)
    (fun _ _ _ ht => TraverseInv.length_le h ht) (hlen.le.trans (Nat.le_add_right ..))
    (traverseInv_start (buildTree F).1 e.idx)
  rw [← hmap] at ht
  rw [← hroot]
  refine ⟨fun n hn => ?_, fun x hx => ht.no_code x fun n hn hleaf => ?_⟩
  · have hn' : n < (buildTree F).1.length := by omega
    exact ht.leaf_code n (ht.mem_visited h hn') ((h.arena.leaf_iff n hn').2 hn)
  · exact hx n ((h.arena.leaf_iff n (ht.inside n hn)).1 hleaf)

/-- Exactly the present symbols have a codeword (R156). For K >= 2 a present symbol's is not empty because the root is no
leaf. -/
theorem tableGet_codeMapOf_ne_nil_iff {F : Vector Word 256} {x : Byte} :
    tableGet (codeMapOf F) x ≠ [] ↔ tableGet F x ≠ 0#32 := by
  rw [present_iff_exists_leaf]
  obtain hK | hK | hK : freqSymbols F = 0 ∨ freqSymbols F = 1 ∨ 2 ≤ freqSymbols F := by omega
  · simp [codeMapOf, assignCodes, buildTree_snd, hK, unsetCodes]
  · have hget : tableGet (codeMapOf F) x = if (nodeAt (buildTree F).1 0).sym = x then [false] else [] := by
      simp [codeMapOf, assignCodes, buildTree_snd, hK, unsetCodes, tableGet_set]
    simp [hget, hK]
  · obtain ⟨hset, hunset⟩ := codeMapOf_eq_paths hK
    constructor
    · intro hx
      by_contra hno
      exact hx (hunset x fun n hn heq => hno ⟨n, hn, heq⟩)
    · rintro ⟨n, hn, rfl⟩ hnil
      have hpath := hset n hn
      rw [hnil, descend, Option.some_inj, root_eq (by omega)] at hpath
      omega

end Sys2Proof.Machine

/-! SUPPORT. The frequency counter of 40_frequency_counter.md: what FCNT counts, and what the commands after it make of the
counts. -/

namespace Sys2Proof.Machine

/-! ## The counts (R121) -/

theorem tableGet_foldl_count (T : List Byte) (F : Vector Nat 256) (x : Byte) :
    tableGet (T.foldl (fun F b => tableSet F b (tableGet F b + 1)) F) x = tableGet F x + T.count x := by
  induction T generalizing F with
  | nil => rfl
  | cons b T ih =>
    rw [List.foldl_cons, ih, tableGet_set, List.count_cons]
    by_cases hb : b = x
    · simp [hb, Nat.add_assoc, Nat.add_comm 1]
    · simp [hb]

theorem tableGet_countFreq (T : List Byte) (x : Byte) : tableGet (countFreq T) x = T.count x := by
  rw [countFreq, tableGet_foldl_count, tableGet_replicate, Nat.zero_add]

@[simp] theorem length_textOperand (s : State) : s.textOperand.length = s.textLen.toNat := by simp [State.textOperand]

theorem count_textOperand_le (s : State) (x : Byte) : s.textOperand.count x ≤ s.textLen.toNat :=
  length_textOperand s ▸ List.count_le_length

theorem fcnt_freq (s : State) : (fcnt s).freq = tableMap (BitVec.ofNat 32) (countFreq s.textOperand) := rfl

/-- A count fits its entry, because the text length fits its register. -/
theorem toNat_tableGet_fcnt (s : State) (x : Byte) : (tableGet (fcnt s).freq x).toNat = s.textOperand.count x := by
  have hle := count_textOperand_le s x
  have hlt := s.textLen.isLt
  rw [fcnt_freq, tableGet_map, tableGet_countFreq, BitVec.toNat_ofNat, Nat.mod_eq_of_lt (by omega)]

/-- Every byte of a text is one of the 256 symbols, so the symbols' counts add up to its length. -/
theorem sum_count_allBytes (T : List Byte) : (allBytes.map (fun x => T.count x)).sum = T.length := by
  have hnodup : allBytes.Nodup := allBytes_ascending.imp fun h heq => Nat.ne_of_lt h (congrArg _ heq)
  have hcard := Multiset.sum_count_eq_card (s := allBytes.toFinset) (m := (T : Multiset Byte)) fun x _ =>
    List.mem_toFinset.2 (mem_allBytes x)
  simpa only [List.sum_toFinset _ hnodup, Multiset.coe_count, Multiset.coe_card] using hcard

theorem freqTotal_fcnt (s : State) : freqTotal (fcnt s).freq = s.textLen.toNat := by
  rw [freqTotal, toList_eq_map_tableGet, List.map_map, ← length_textOperand, ← sum_count_allBytes]
  exact congrArg List.sum (List.map_congr_left fun x _ => toNat_tableGet_fcnt s x)

theorem legalTable_fcnt {s : State} (h : s.textLen.toNat ≤ Config.textCap) : legalTable (fcnt s).freq := by
  intro x
  have hle := count_textOperand_le s x
  have hcap : Config.textCap = 65536 := rfl
  rw [BitVec.msb_eq_false_iff_two_mul_lt, toNat_tableGet_fcnt]
  omega

/-- Settles O9: entry by entry, from what one pass over the text adds to each count. -/
theorem fcntCountsEachSymbol : Obligations.FcntCountsEachSymbol := by
  intro s _
  exact ⟨(fcnt s).freq, rfl, toNat_tableGet_fcnt s⟩

/-- Settles O10: each count is that of a symbol of the text, and every byte of the text is counted once. -/
theorem fcntTotalIsTheTextLength : Obligations.FcntTotalIsTheTextLength := by
  intro s t h ht
  obtain rfl := exec_eq_next ht
  exact ⟨freqTotal_fcnt s, legalTable_fcnt h, fun x => toNat_tableGet_fcnt s x ▸ count_textOperand_le s x⟩

/-! ## TBLD after FCNT -/

/-- What a table must be to pass validation (R130). -/
theorem validFreq_eq_none_iff {F : Vector Word 256} {c : Bool} {N : Word} :
    validFreq F c N = none ↔ legalTable F ∧ totalOk c F N := by
  have hlegal : F.toList.findIdx? (·.msb) = none ↔ legalTable F := by
    simp [toList_eq_map_tableGet, mem_allBytes, legalTable]
  unfold validFreq
  cases hidx : F.toList.findIdx? (·.msb) with
  | some i => simp [← hlegal, hidx]
  | none => simp [← hlegal, hidx, totalOk]

theorem Failure.code_ne_zero (f : Failure) : f.code ≠ 0#8 := by cases f <;> decide

/-- `TBLD` succeeds exactly on a table that passes validation (R136). -/
theorem tbld_err_eq_zero_iff (c : Bool) (s : State) :
    (tbld c s).err = 0#8 ↔ legalTable s.freq ∧ totalOk c s.freq s.symCount := by
  rw [← validFreq_eq_none_iff]
  obtain ⟨r, hr, h⟩ | ⟨hr, h⟩ := tbld_cases c s <;> rw [h, hr]
  · simp [Failure.code_ne_zero]
  · simp

/-- On a table that passes validation `TBLD` leaves its tree (R136). -/
theorem tbld_of_valid {c : Bool} {s : State} (hlegal : legalTable s.freq) (htotal : totalOk c s.freq s.symCount) :
    tbld c s = { s with node := (buildTree s.freq).1, nsym := BitVec.ofNat 9 (buildTree s.freq).2
                        treeValid := true }.succeed (emptyTree (buildTree s.freq).2) := by
  have hvalid := validFreq_eq_none_iff.2 ⟨hlegal, htotal⟩
  obtain ⟨r, hr, -⟩ | ⟨-, h⟩ := tbld_cases c s
  · cases hr.symm.trans hvalid
  · exact h

/-! ## TBLD, CASN and BENC after FCNT -/

theorem toNat_ofNat_buildTree_snd (F : Vector Word 256) : (BitVec.ofNat 9 (buildTree F).2).toNat = (buildTree F).2 := by
  have := freqSymbols_le F
  rw [buildTree_snd, BitVec.toNat_ofNat, Nat.mod_eq_of_lt (by omega)]

/-- `TBLD` and then `CASN` on a legal table leave its code map (R28) and keep the table and the text. -/
theorem casn_tbld {s : State} (h : legalTable s.freq) :
    (casn (tbld false s)).codeValid = true ∧ (casn (tbld false s)).code = codeMapOf s.freq ∧
      (casn (tbld false s)).textOperand = s.textOperand := by
  rw [tbld_of_valid h Bool.noConfusion]
  obtain ⟨-, hcasn⟩ | ⟨hno, -⟩ := casn_cases ({ s with
    node := (buildTree s.freq).1, nsym := BitVec.ofNat 9 (buildTree s.freq).2
    treeValid := true }.succeed (emptyTree (buildTree s.freq).2))
  · rw [hcasn]
    refine ⟨rfl, ?_, rfl⟩
    simp only [State.succeed_code, State.succeed_node, State.succeed_nsym, toNat_ofNat_buildTree_snd, codeMapOf]
  · cases hno

/-- Where every byte has a codeword, only the capacity of BITS can end the loop of `BENC` early (R165). -/
theorem encodeLoop_failure {code : Vector BitString 256} {i n : Nat} {T : List Byte} {f : Raise}
    (h : ∀ x ∈ T, tableGet code x ≠ []) (hf : (encodeLoop code i n T).2 = some f) : f.failure = .capacityExceeded := by
  induction T generalizing i n with
  | nil => cases hf
  | cons b T ih =>
    obtain ⟨hb, hT⟩ := List.forall_mem_cons.1 h
    rw [encodeLoop] at hf
    simp only [List.isEmpty_iff, hb, if_false] at hf
    split at hf
    · cases hf
      rfl
    · exact ih hT hf

/-- `BENC` with a code map for its text does not fail with UnknownSymbol. -/
theorem benc_err_ne_unknownSymbol {s : State} (hvalid : s.codeValid = true)
    (h : ∀ x ∈ s.textOperand, tableGet s.code x ≠ []) : (benc s).err ≠ 1#8 := by
  obtain ⟨-, hbenc⟩ | ⟨-, hno, -⟩ | ⟨-, -, out, f, hf, hbenc⟩ | ⟨-, -, out, -, hbenc⟩ := benc_cases s
  · rw [hbenc, State.succeed_err]; decide
  · cases hno.symm.trans hvalid
  · rw [hbenc, State.raise_err, encodeLoop_failure h (congrArg Prod.snd hf)]
    decide
  · rw [hbenc, State.succeed_err]; decide

/-- A byte of the text has a count, so it has a codeword (R123). -/
theorem tableGet_codeMapOf_fcnt_ne_nil {s : State} {x : Byte} (hx : x ∈ s.textOperand) :
    tableGet (codeMapOf (fcnt s).freq) x ≠ [] := by
  rw [tableGet_codeMapOf_ne_nil_iff]
  intro hzero
  have hcount := toNat_tableGet_fcnt s x
  rw [hzero] at hcount
  exact Nat.ne_of_lt (List.count_pos_iff.2 hx) hcount

/-- Settles O11: the counts pass validation, and every byte of the text has one. -/
theorem fcntPreparesTheFollowingCommands : Obligations.FcntPreparesTheFollowingCommands := by
  intro s t h ht
  obtain rfl := exec_eq_next ht
  have hlegal : legalTable (fcnt s).freq := legalTable_fcnt h
  refine ⟨⟨_, exec_eq _ _, ?_⟩, ⟨_, exec_eq _ _, ?_⟩, ⟨benc (casn (tbld false (fcnt s))), rfl, ?_⟩⟩
  · exact (tbld_err_eq_zero_iff false (fcnt s)).2 ⟨hlegal, Bool.noConfusion⟩
  · calc (tbld true (fcnt s)).err = 0#8
      _ ↔ freqTotal (fcnt s).freq = (fcnt s).symCount.toNat := by simp [tbld_err_eq_zero_iff, hlegal, totalOk]
      _ ↔ (fcnt s).symCount = s.textLen := by rw [freqTotal_fcnt, eq_comm, BitVec.toNat_inj]
  · obtain ⟨hvalid, hcode, htext⟩ := casn_tbld hlegal
    refine benc_err_ne_unknownSymbol hvalid fun x hx => ?_
    rw [hcode]
    exact tableGet_codeMapOf_fcnt_ne_nil (htext ▸ hx)

end Sys2Proof.Machine

/-! SUPPORT. The tree builder's queue against the merge loop of 41_tree_builder.md (R132, R133), the leaves (R131), and how
`TBLD` and `BDEC` end on a table that passes validation and on one that does not (R130, R136, R188). -/

namespace Sys2Proof.Machine

/-! ## The priority order (R132) -/

/-- What the priority order compares: the weight, then the node index. -/
def QueueEntry.key (x : QueueEntry) : ℕ ×ₗ ℕ := toLex (x.weight.toNat, x.idx)

theorem before_iff_key_lt {x y : QueueEntry} : before x y = true ↔ x.key < y.key := by
  simp [before, QueueEntry.key, Prod.Lex.toLex_lt_toLex, BitVec.lt_def, BitVec.toNat_inj]

theorem QueueEntry.idx_eq_of_key_eq {x y : QueueEntry} (h : x.key = y.key) : x.idx = y.idx :=
  congrArg (fun p => (ofLex p).2) h

/-- The queue entry of a node of the arena (R131). -/
def entryAt (nodes : List Node) (n : Nat) : QueueEntry := ⟨(nodeAt nodes n).weight, n⟩

theorem nodeBefore_iff {nodes : List Node} {n m : Nat} :
    nodeBefore nodes n m = true ↔ (entryAt nodes n).key < (entryAt nodes m).key := before_iff_key_lt

theorem entryAt_append_left {nodes : List Node} {n : Nat} (more : List Node) (h : n < nodes.length) :
    entryAt (nodes ++ more) n = entryAt nodes n := by
  rw [entryAt, nodeAt_append_left more h, entryAt]

@[simp] theorem entryAt_append_length (nodes : List Node) (x : Node) :
    entryAt (nodes ++ [x]) nodes.length = ⟨x.weight, nodes.length⟩ := by
  rw [entryAt, nodeAt_append_length]

/-! ## extractMin (R132) -/

@[simp] theorem extractMin_nil (nodes : List Node) : extractMin nodes [] = none := rfl

theorem leastOf_mem (nodes : List Node) (best : Nat) (ns : List Nat) : leastOf nodes best ns ∈ best :: ns := by
  induction ns generalizing best with
  | nil => exact List.mem_cons_self
  | cons n ns ih =>
    rw [leastOf]
    split
    · exact List.mem_cons_of_mem _ (ih n)
    · exact List.cons_subset_cons best (List.subset_cons_self n ns) (ih best)

theorem key_leastOf_le (nodes : List Node) (best : Nat) (ns : List Nat) :
    ∀ x ∈ best :: ns, (entryAt nodes (leastOf nodes best ns)).key ≤ (entryAt nodes x).key := by
  induction ns generalizing best with
  | nil =>
    intro x hx
    rw [List.mem_singleton.1 hx, leastOf]
  | cons n ns ih =>
    intro x hx
    rw [leastOf]
    split
    case isTrue hlt =>
      obtain ⟨hn, hns⟩ := List.forall_mem_cons.1 (ih n)
      obtain rfl | rfl | hx := by simpa using hx
      · exact hn.trans (nodeBefore_iff.1 hlt).le
      · exact hn
      · exact hns x hx
    case isFalse hge =>
      obtain ⟨hbest, hns⟩ := List.forall_mem_cons.1 (ih best)
      obtain rfl | rfl | hx := by simpa using hx
      · exact hbest
      · exact hbest.trans (not_lt.1 (mt nodeBefore_iff.2 hge))
      · exact hns x hx

/-- `extractMin` returns a member that no member is before, and removes it. -/
theorem extractMin_eq_some {nodes : List Node} {active rest : List Nat} {a : Nat}
    (h : extractMin nodes active = some (a, rest)) :
    a ∈ active ∧ rest = active.erase a ∧ ∀ x ∈ active, (entryAt nodes a).key ≤ (entryAt nodes x).key := by
  match active, h with
  | n :: ns, h =>
    obtain ⟨rfl, rfl⟩ := Prod.mk.inj (Option.some.inj h)
    exact ⟨leastOf_mem nodes n ns, rfl, key_leastOf_le nodes n ns⟩

/-- A member that no member is before is the one `extractMin` returns, since keys tell nodes apart. -/
theorem extractMin_of_least {nodes : List Node} {active : List Nat} {a : Nat} (hmem : a ∈ active)
    (hle : ∀ x ∈ active, (entryAt nodes a).key ≤ (entryAt nodes x).key) :
    extractMin nodes active = some (a, active.erase a) := by
  match active, hmem with
  | n :: ns, hmem =>
    have hkey := le_antisymm (key_leastOf_le nodes n ns a hmem) (hle _ (leastOf_mem nodes n ns))
    have ha : leastOf nodes n ns = a := QueueEntry.idx_eq_of_key_eq hkey
    rw [extractMin, ha]

/-! ## The sorted queue -/

/-- No entry is before an earlier one. -/
def QueueSorted (q : List QueueEntry) : Prop := q.Pairwise (fun x y => x.key ≤ y.key)

theorem queueSorted_enqueue {q : List QueueEntry} (h : QueueSorted q) (e : QueueEntry) :
    QueueSorted (enqueue e q) := by
  induction q with
  | nil => exact List.pairwise_singleton ..
  | cons x q ih =>
    obtain ⟨hx, hq⟩ := List.pairwise_cons.1 h
    rw [enqueue]
    split
    case isTrue hlt =>
      have hex := (before_iff_key_lt.1 hlt).le
      exact List.pairwise_cons.2 ⟨List.forall_mem_cons.2 ⟨hex, fun y hy => hex.trans (hx y hy)⟩, h⟩
    case isFalse hge =>
      have hxe : x.key ≤ e.key := not_lt.1 (mt before_iff_key_lt.2 hge)
      have hall : ∀ y ∈ e :: q, x.key ≤ y.key := List.forall_mem_cons.2 ⟨hxe, hx⟩
      exact List.pairwise_cons.2 ⟨fun y hy => hall y ((enqueue_perm e q).mem_iff.1 hy), ih hq⟩

theorem queueSorted_foldl_enqueue (ps : List (Node × Nat)) {q : List QueueEntry} (h : QueueSorted q) :
    QueueSorted (ps.foldl (fun q p => enqueue ⟨p.1.weight, p.2⟩ q) q) := by
  induction ps generalizing q with
  | nil => exact h
  | cons p ps ih => exact ih (queueSorted_enqueue h _)

theorem queueSorted_leafQueue (nodes : List Node) : QueueSorted (leafQueue nodes) :=
  queueSorted_foldl_enqueue nodes.zipIdx List.Pairwise.nil

/-! ## The queue and the set ACTIVE -/

/-- The queue holds the set `ACTIVE` of nodes of the arena, in priority order: the relation between the model's merge loop
and the one of R133. -/
structure QueueOf (nodes : List Node) (q : List QueueEntry) (active : List Nat) : Prop where
  sorted : QueueSorted q
  perm   : q.Perm (active.map (entryAt nodes))
  inside : ∀ n ∈ active, n < nodes.length

/-- All leaves are active before the first merge (R131). -/
theorem queueOf_leaves (nodes : List Node) : QueueOf nodes (leafQueue nodes) (List.range nodes.length) := by
  refine ⟨queueSorted_leafQueue nodes, ?_, fun n => List.mem_range.1⟩
  have hentry : (leafQueue nodes).map (fun e => entryAt nodes e.idx) = leafQueue nodes :=
    (List.map_congr_left fun e he => by rw [entryAt, weight_of_mem_leafQueue he]; rfl).trans (List.map_id _)
  have h := (leafQueue_map_idx nodes).map (entryAt nodes)
  rwa [List.map_map, Function.comp_def, hentry] at h

theorem QueueOf.active_eq_nil {nodes : List Node} {active : List Nat} (h : QueueOf nodes [] active) : active = [] :=
  List.map_eq_nil_iff.1 h.perm.nil_eq.symm

section
variable {nodes : List Node} {a : QueueEntry} {q : List QueueEntry} {active : List Nat}

/-- The head of the queue is the entry of an active node. -/
theorem QueueOf.head_mem (h : QueueOf nodes (a :: q) active) : a.idx ∈ active ∧ entryAt nodes a.idx = a := by
  obtain ⟨n, hn, rfl⟩ := List.mem_map.1 (h.perm.mem_iff.1 List.mem_cons_self)
  exact ⟨hn, rfl⟩

/-- `extractMin` takes the head of the queue. -/
theorem QueueOf.extractMin_eq (h : QueueOf nodes (a :: q) active) :
    extractMin nodes active = some (a.idx, active.erase a.idx) := by
  obtain ⟨hmem, hentry⟩ := h.head_mem
  refine extractMin_of_least hmem fun x hx => ?_
  rw [hentry]
  rcases List.mem_cons.1 (h.perm.mem_iff.2 (List.mem_map_of_mem hx)) with heq | hq
  · rw [heq]
  · exact (List.pairwise_cons.1 h.sorted).1 _ hq

/-- The tail of the queue holds the rest of the set. -/
theorem QueueOf.tail (h : QueueOf nodes (a :: q) active) : QueueOf nodes q (active.erase a.idx) := by
  obtain ⟨hmem, hentry⟩ := h.head_mem
  refine ⟨(List.pairwise_cons.1 h.sorted).2, ?_, fun n hn => h.inside n (List.mem_of_mem_erase hn)⟩
  have hperm := h.perm.trans ((List.perm_cons_erase hmem).map (entryAt nodes))
  rw [List.map_cons, hentry] at hperm
  exact hperm.cons_inv

/-- A new node enters the queue and the set. -/
theorem QueueOf.insert (h : QueueOf nodes q active) (x : Node) :
    QueueOf (nodes ++ [x]) (enqueue ⟨x.weight, nodes.length⟩ q) (nodes.length :: active) := by
  have hold : active.map (entryAt (nodes ++ [x])) = active.map (entryAt nodes) :=
    List.map_congr_left fun n hn => entryAt_append_left [x] (h.inside n hn)
  refine ⟨queueSorted_enqueue h.sorted _, ?_, ?_⟩
  · rw [List.map_cons, entryAt_append_length, hold]
    exact (enqueue_perm _ q).trans (h.perm.cons _)
  · rw [List.length_append, List.length_singleton]
    exact List.forall_mem_cons.2 ⟨Nat.lt_succ_self _, fun n hn => Nat.lt_succ_of_lt (h.inside n hn)⟩

end

/-- The two merge loops build the same arena (R133): merge by merge they remove the same two nodes and insert the same
new one. -/
theorem mergeLoop_eq_mergeByExtractMin (fuel : Nat) {nodes : List Node} {q : List QueueEntry} {active : List Nat}
    (h : QueueOf nodes q active) : mergeLoop fuel nodes q = mergeByExtractMin fuel nodes active := by
  induction fuel generalizing nodes q active with
  | zero => rfl
  | succ fuel ih =>
    match q, h with
    | [], h => rw [h.active_eq_nil]; rfl
    | [e], h =>
      simp only [mergeLoop, mergeByExtractMin, h.extractMin_eq, h.tail.active_eq_nil, extractMin_nil]
    | a :: b :: q, h =>
      have ha : (nodeAt nodes a.idx).weight = a.weight := congrArg QueueEntry.weight h.head_mem.2
      have hb : (nodeAt nodes b.idx).weight = b.weight := congrArg QueueEntry.weight h.tail.head_mem.2
      simp only [mergeLoop, mergeByExtractMin, h.extractMin_eq, h.tail.extractMin_eq, ha, hb]
      exact ih (h.tail.tail.insert (internalNode (a.weight + b.weight) a.idx b.idx))

/-- Settles O14: the least key belongs to one node only, and the model's queue simulates the set `ACTIVE`. -/
theorem mergeLoopExtractsTheLeastTwo : Obligations.MergeLoopExtractsTheLeastTwo := by
  refine ⟨fun nodes active rest a hnodup h => ?_, fun F => ?_⟩
  · obtain ⟨hmem, rfl, hle⟩ := extractMin_eq_some h
    refine ⟨hmem, rfl, fun x hx => ?_⟩
    obtain ⟨hne, hx⟩ := hnodup.mem_erase_iff.1 hx
    exact nodeBefore_iff.2 (lt_of_le_of_ne (hle x hx) fun heq => hne (QueueEntry.idx_eq_of_key_eq heq).symm)
  · exact mergeLoop_eq_mergeByExtractMin _ (queueOf_leaves (leaves F))

/-! ## The leaves (R131) -/

/-- Settles O13: the first K nodes of the tree are the leaves of the table. -/
theorem leavesAreThePresentSymbolsAscending : Obligations.LeavesAreThePresentSymbolsAscending := by
  intro F
  refine ⟨buildTree_snd F, fun i hi => ?_, fun i j => buildTree_sym_lt F, fun b => present_iff_exists_leaf.1⟩
  obtain ⟨b, hb, hleaf⟩ := mem_leaves.1 (nodeAt_mem (nodes := leaves F) (length_leaves F ▸ hi))
  rw [nodeAt_buildTree_of_lt hi, ← hleaf]
  simp only [leafNode_sym]
  exact ⟨rfl, hb, rfl, rfl, rfl⟩

/-! ## TBLD on a table that passes validation (R136) -/

/-- Settles O12: the table passes validation, and the tree has as many leaves as there are present symbols. -/
theorem tbldBuildsTheTree : Obligations.TbldBuildsTheTree := by
  intro c s hlegal htotal
  have hempty : emptyTree (freqSymbols s.freq) = decide (freqSymbols s.freq = 0) := beq_eq_decide ..
  rw [exec_eq, afterCommand, tbld_of_valid hlegal htotal, buildTree_snd, hempty]
  rfl

/-! ## TBLD and BDEC on a table that fails validation (R130, R136, R188) -/

/-- The lowest symbol with bit 31 set is reported, whatever the flag and the total (R130). -/
theorem validFreq_of_lowest_negative {F : Vector Word 256} {x : Byte} (hx : (tableGet F x).msb = true)
    (hlow : ∀ y : Byte, y.toNat < x.toNat → (tableGet F y).msb = false) (c : Bool) (N : Word) :
    validFreq F c N = some ⟨.invalidFrequencyTable, x.setWidth 32⟩ := by
  have hidx : F.toList.findIdx? (·.msb) = some x.toNat := by
    refine List.findIdx?_eq_some_iff_getElem.2 ⟨by rw [Vector.length_toList]; exact x.isLt, ?_, fun j hj => ?_⟩
    · rwa [tableGet_eq_toList]
    · have hjb : (BitVec.ofNat 8 j).toNat = j := Nat.mod_eq_of_lt (hj.trans x.isLt)
      have hentry := tableGet_eq_toList F (BitVec.ofNat 8 j)
      simp only [hjb] at hentry
      rw [hentry, hlow _ (hjb.symm ▸ hj)]
      decide
  simp only [validFreq, hidx, BitVec.ofNat_toNat]

/-- Under flag `C` a wrong total of a legal table is reported (R130). -/
theorem validFreq_of_wrong_total {F : Vector Word 256} {N : Word} (hlegal : legalTable F)
    (htotal : freqTotal F ≠ N.toNat) : validFreq F true N = some ⟨.invalidFrequencyTable, 0x100#32⟩ := by
  have hidx : F.toList.findIdx? (·.msb) = none := by
    simp [toList_eq_map_tableGet, mem_allBytes, hlegal _]
  simp [validFreq, hidx, htotal]

/-- On a table that fails validation `TBLD` keeps all but TREE_VALID and the outcome (R136). -/
theorem tbld_of_invalid {c : Bool} {s : State} {r : Raise} (h : validFreq s.freq c s.symCount = some r) :
    tbld c s = { s with treeValid := false }.raise r := by
  obtain ⟨r', hr, heq⟩ | ⟨hr, -⟩ := tbld_cases c s
  · obtain rfl := Option.some.inj (h.symm.trans hr)
    exact heq
  · cases h.symm.trans hr

/-- On a table that fails validation `BDEC` keeps all but TREE_VALID, TEXT_LEN and the outcome (R188). -/
theorem bdec_of_invalid {c : Bool} (l : Bool) {s : State} {r : Raise} (h : validFreq s.freq c s.symCount = some r) :
    bdec l c s = { s with treeValid := false, textLen := 0#32 }.raise r := by
  obtain ⟨r', hr, heq⟩ | ⟨hr, -⟩ := bdec_cases l c s
  · obtain rfl := Option.some.inj (h.symm.trans hr)
    exact heq
  · cases h.symm.trans hr

/-- Both commands raise what validation reports. -/
theorem exec_of_invalid {c : Bool} (l : Bool) {s : State} {r : Raise} (h : validFreq s.freq c s.symCount = some r) :
    exec (.tbld c) s = .next ({ s with treeValid := false }.raise r) ∧
      exec (.bdec l c) s = .next ({ s with treeValid := false, textLen := 0#32 }.raise r) := by
  rw [exec_eq, exec_eq, afterCommand, afterCommand, tbld_of_invalid h, bdec_of_invalid l h]
  exact ⟨rfl, rfl⟩

/-- Settles O17: validation stops at the lowest negative entry. -/
theorem lowestNegativeEntryIsReported : Obligations.LowestNegativeEntryIsReported := by
  intro s x l c hx hlow
  exact exec_of_invalid l (validFreq_of_lowest_negative hx hlow c s.symCount)

/-- Settles O18: validation compares the total with SYM_COUNT as integers, after every sign has passed. -/
theorem wrongTotalIsReportedUnderFlagC : Obligations.WrongTotalIsReportedUnderFlagC := by
  intro s l hlegal htotal
  exact exec_of_invalid l (validFreq_of_wrong_total hlegal htotal)

end Sys2Proof.Machine

/-! SUPPORT. The command CASN of 42_code_assigner.md: what it writes with and without a valid tree (R150), the codewords of the
present symbols (R151, R153), and how long a path of the tree can be (R155, R222). -/

namespace Sys2Proof.Machine

/-! ## CASN with and without a valid tree (R150) -/

theorem casn_of_valid {s : State} (h : s.treeValid = true) :
    casn s = { s with code := assignCodes s.node s.nsym.toNat, codeValid := true
                      treeValid := false }.succeed (emptyTree s.nsym.toNat) := by
  obtain ⟨-, hcasn⟩ | ⟨hno, -⟩ := casn_cases s
  · exact hcasn
  · cases hno.symm.trans h

theorem casn_of_no_tree {s : State} (h : s.treeValid = false) :
    casn s = { s with codeValid := false }.raise ⟨.sequenceError, 0#32⟩ := by
  obtain ⟨hyes, -⟩ | ⟨-, hcasn⟩ := casn_cases s
  · cases h.symm.trans hyes
  · exact hcasn

/-- Settles O20: without a valid tree the command only raises SequenceError, whose code is 4, and clears CODE_VALID. -/
theorem casnNeedsAValidTree : Obligations.CasnNeedsAValidTree := by
  intro s h
  rw [exec_eq, afterCommand, casn_of_no_tree h]
  rfl

/-! ## The codeword of a present symbol (R151, R153) -/

/-- The symbol of a tree of one leaf has the codeword 0 (R153). -/
theorem tableGet_codeMapOf_of_single {F : Vector Word 256} (hF : freqSymbols F = 1) {x : Byte}
    (hx : tableGet F x ≠ 0#32) : tableGet (codeMapOf F) x = [false] := by
  obtain ⟨n, hn, rfl⟩ := present_iff_exists_leaf.1 hx
  obtain rfl : n = 0 := by omega
  simp [codeMapOf, assignCodes, buildTree_snd, hF]

/-- With at least two symbols a present one's codeword leads from the root to a leaf of it (R151). -/
theorem exists_leaf_descend_codeMapOf {F : Vector Word 256} (hF : 2 ≤ freqSymbols F) {x : Byte}
    (hx : tableGet F x ≠ 0#32) :
    ∃ n, n < freqSymbols F ∧ (nodeAt (buildTree F).1 n).sym = x ∧
      descend (buildTree F).1 (root (freqSymbols F)) (tableGet (codeMapOf F) x) = some n := by
  obtain ⟨n, hn, rfl⟩ := present_iff_exists_leaf.1 hx
  exact ⟨n, hn, rfl, (codeMapOf_eq_paths hF).1 n hn⟩

/-- Settles O19: on the tree of FREQ the assigned codes are by definition the code map of FREQ, and its codewords are those of
the lemmas above for the two kinds of tree. -/
theorem casnAssignsTheTreePaths : Obligations.CasnAssignsTheTreePaths := by
  intro s hvalid hnode hnsym
  have hK : s.nsym.toNat = freqSymbols s.freq := hnsym.trans (buildTree_snd s.freq)
  have hempty : emptyTree s.nsym.toNat = decide (s.nsym = 0#9) := by
    rw [emptyTree, beq_eq_decide]
    exact decide_eq_decide.2 (BitVec.toNat_eq (y := 0#9)).symm
  refine ⟨codeMapOf s.freq, ?_, rfl, fun b hb => ?_, fun hone b hb => ?_, fun htwo b hb => ?_⟩
  · rw [exec_eq, afterCommand, casn_of_valid hvalid, hempty, codeMapOf, ← hnode, ← hnsym]
    rfl
  · exact not_not.1 fun hset => tableGet_codeMapOf_ne_nil_iff.1 hset hb
  · exact tableGet_codeMapOf_of_single (by rw [← hK, hone]; rfl) hb
  · rw [hnode, hK]
    exact exists_leaf_descend_codeMapOf (hK ▸ htwo) hb

/-! ## The length of a path (R155, R222) -/

theorem Arena.childFor_lt {K : Nat} {nodes : List Node} (h : Arena K nodes) {n : Nat} (hn : n < nodes.length)
    (hleaf : (nodeAt nodes n).leaf = false) (b : Bool) : childFor nodes n b < n :=
  h.children_lt n hn _ ((mem_children_iff hleaf).2 (by cases b <;> simp [childFor]))

/-- A path goes down through internal nodes of falling index, and those from `n` on down to `K` are `n + 1 - K`. -/
theorem Arena.length_path_le {K : Nat} {nodes : List Node} (h : Arena K nodes) {n m : Nat} {p : BitString}
    (hn : n < nodes.length) (hp : descend nodes n p = some m) : p.length ≤ n + 1 - K := by
  induction p generalizing n with
  | nil => exact Nat.zero_le _
  | cons b p ih =>
    cases hleaf : (nodeAt nodes n).leaf with
    | true => simp [descend, hleaf] at hp
    | false =>
      have hinner : ¬ n < K := fun hlt => Bool.false_ne_true (hleaf.symm.trans ((h.leaf_iff n hn).2 hlt))
      have hchild := h.childFor_lt hn hleaf b
      have hrest := ih (hchild.trans hn) (by simpa [descend, hleaf] using hp)
      rw [List.length_cons]
      omega

/-- No codeword of at least two symbols is longer than the number of internal nodes (R155). -/
theorem length_codeMapOf_le {F : Vector Word 256} (hF : 2 ≤ freqSymbols F) {x : Byte} (hx : tableGet F x ≠ 0#32) :
    (tableGet (codeMapOf F) x).length ≤ freqSymbols F - 1 := by
  obtain ⟨e, h⟩ := mergeInv_buildTree (F := F) (by omega)
  obtain ⟨n, -, -, hpath⟩ := exists_leaf_descend_codeMapOf hF hx
  have hidx : e.idx = 2 * freqSymbols F - 2 := h.idx_eq
  rw [root_eq (by omega), ← hidx] at hpath
  have hlen := h.arena.length_path_le (h.idx_lt List.mem_cons_self) hpath
  omega

/-- Settles O22: the codeword of a present symbol is not empty, and it is the path to a leaf or, for one symbol, 0. -/
theorem codewordLengthsAreBounded : Obligations.CodewordLengthsAreBounded := by
  intro F b
  refine ⟨tableGet_codeMapOf_ne_nil_iff, fun hb => ⟨?_, fun htwo => length_codeMapOf_le htwo hb, fun hone => ?_⟩⟩
  · exact List.length_pos_iff.2 (tableGet_codeMapOf_ne_nil_iff.2 hb)
  · rw [tableGet_codeMapOf_of_single hone hb, List.length_singleton]

end Sys2Proof.Machine

/-! SUPPORT. The command BENC of 43_bitstream_encoder.md: its loop on a text whose first bytes have codewords that fit (R165,
R166), the zero bits of the last byte (R69), and the end of each of its branches. -/

namespace Sys2Proof.Machine

/-! ## The codewords of a text (R102, R166) -/

@[simp] theorem codewords_nil (code : Vector BitString 256) : codewords code [] = [] := rfl

@[simp] theorem codewords_cons (code : Vector BitString 256) (b : Byte) (T : List Byte) :
    codewords code (b :: T) = tableGet code b ++ codewords code T := List.flatMap_cons

/-- `encodeBits` of a text whose every byte has a codeword is their concatenation (R166). -/
theorem encodeBits_eq_codewords {code : Vector BitString 256} {T : List Byte} (h : ∀ b ∈ T, tableGet code b ≠ []) :
    encodeBits code T = .ok (codewords code T) := by
  induction T with
  | nil => rfl
  | cons b T ih =>
    obtain ⟨hb, hT⟩ := List.forall_mem_cons.1 h
    simp [encodeBits, hb, ih hT]

/-! ## The loop (R165) -/

@[simp] theorem encodeLoop_nil (code : Vector BitString 256) (i n : Nat) : encodeLoop code i n [] = ([], none) := rfl

theorem encodeLoop_cons_of_unset {code : Vector BitString 256} {b : Byte} (hb : tableGet code b = []) (i n : Nat)
    (T : List Byte) : encodeLoop code i n (b :: T) = ([], some ⟨.unknownSymbol, BitVec.ofNat 32 i⟩) := by
  simp [encodeLoop, hb]

theorem encodeLoop_cons_of_no_room {code : Vector BitString 256} {b : Byte} (hb : tableGet code b ≠ []) (i : Nat) {n : Nat}
    (hn : Config.bitCap < n + (tableGet code b).length) (T : List Byte) :
    encodeLoop code i n (b :: T) = ([], some ⟨.capacityExceeded, BitVec.ofNat 32 i⟩) := by
  simp only [encodeLoop, List.isEmpty_iff, hb, if_false, if_pos hn]

theorem encodeLoop_cons_of_fits {code : Vector BitString 256} {b : Byte} (hb : tableGet code b ≠ []) (i : Nat) {n : Nat}
    (hn : n + (tableGet code b).length ≤ Config.bitCap) (T : List Byte) :
    encodeLoop code i n (b :: T) = (tableGet code b ++ (encodeLoop code (i + 1) (n + (tableGet code b).length) T).1,
      (encodeLoop code (i + 1) (n + (tableGet code b).length) T).2) := by
  simp only [encodeLoop, List.isEmpty_iff, hb, if_false, if_neg (Nat.not_lt.2 hn)]

/-- The loop writes the codewords of leading bytes that have one and fit, and goes on after them. -/
theorem encodeLoop_append {code : Vector BitString 256} {A : List Byte} (T : List Byte) (i : Nat) {n : Nat}
    (hset : ∀ b ∈ A, tableGet code b ≠ []) (hfits : n + (codewords code A).length ≤ Config.bitCap) :
    encodeLoop code i n (A ++ T) =
      (codewords code A ++ (encodeLoop code (i + A.length) (n + (codewords code A).length) T).1,
        (encodeLoop code (i + A.length) (n + (codewords code A).length) T).2) := by
  induction A generalizing i n with
  | nil => rfl
  | cons b A ih =>
    obtain ⟨hb, hA⟩ := List.forall_mem_cons.1 hset
    rw [codewords_cons, List.length_append, ← Nat.add_assoc] at hfits
    rw [List.cons_append, encodeLoop_cons_of_fits hb i (by omega), ih (i + 1) hA hfits, codewords_cons,
      List.length_append, List.length_cons, ← Nat.add_assoc n, Nat.add_right_comm i 1, Nat.add_assoc i, List.append_assoc]

/-! ## The zero bits of the last byte (R69) -/

theorem length_append_padding (B : BitString) : (B ++ padding B.length).length = 8 * ((B.length + 7) / 8) := by
  rw [List.length_append, padding, List.length_replicate]
  omega

theorem getElem?_append_padding {B : BitString} {j : Nat} (hB : B.length ≤ j) (hj : j < 8 * ((B.length + 7) / 8)) :
    (B ++ padding B.length)[j]? = some false := by
  rw [List.getElem?_append_right hB, padding, List.getElem?_replicate, if_pos (by omega)]

/-! ## The branches of BENC (R165) -/

theorem emptyText_iff {s : State} : emptyText s = true ↔ s.textLen = 0#32 := beq_iff_eq

theorem textLen_ne_zero_of_textOperand {s : State} (h : s.textOperand ≠ []) : s.textLen ≠ 0#32 := by
  intro hzero
  refine h (List.length_eq_zero_iff.1 ?_)
  rw [length_textOperand, hzero]
  rfl

theorem benc_of_empty {s : State} (h : s.textLen = 0#32) : benc s = { s with bitLen := 0#32 }.succeed true := by
  have hempty := emptyText_iff.2 h
  obtain ⟨-, hbenc⟩ | ⟨hno, -⟩ | ⟨hno, -⟩ | ⟨hno, -⟩ := benc_cases s
  · exact hbenc
  all_goals cases hno.symm.trans hempty

section
variable {s : State} (htext : s.textLen ≠ 0#32)
include htext

theorem benc_of_no_code (h : s.codeValid = false) : benc s = { s with bitLen := 0#32 }.raise ⟨.sequenceError, 0#32⟩ := by
  obtain ⟨hyes, -⟩ | ⟨-, -, hbenc⟩ | ⟨-, hvalid, -⟩ | ⟨-, hvalid, -⟩ := benc_cases s
  · exact absurd (emptyText_iff.1 hyes) htext
  · exact hbenc
  all_goals cases hvalid.symm.trans h

theorem benc_of_loop_failed (hvalid : s.codeValid = true) {out : BitString} {f : Raise}
    (h : encodeLoop s.code 0 0 s.textOperand = (out, some f)) :
    benc s = { s with bitLen := 0#32, bits := s.bits.putBits (Config.unwrittenBits s.resets) out }.raise f := by
  obtain ⟨hyes, -⟩ | ⟨-, hno, -⟩ | ⟨-, -, out', f', hloop, hbenc⟩ | ⟨-, -, out', hloop, -⟩ := benc_cases s
  · exact absurd (emptyText_iff.1 hyes) htext
  · cases hno.symm.trans hvalid
  · cases hloop.symm.trans h
    exact hbenc
  · cases hloop.symm.trans h

theorem benc_of_loop_done (hvalid : s.codeValid = true) {out : BitString}
    (h : encodeLoop s.code 0 0 s.textOperand = (out, none)) :
    benc s = { s with bits := s.bits.putBits (Config.unwrittenBits s.resets) (out ++ padding out.length)
                      bitLen := BitVec.ofNat 32 out.length }.succeed false := by
  obtain ⟨hyes, -⟩ | ⟨-, hno, -⟩ | ⟨-, -, out', f', hloop, -⟩ | ⟨-, -, out', hloop, hbenc⟩ := benc_cases s
  · exact absurd (emptyText_iff.1 hyes) htext
  · cases hno.symm.trans hvalid
  · cases hloop.symm.trans h
  · cases hloop.symm.trans h
    exact hbenc

end

/-- Settles O26: the branch of an empty text, which comes before the test of CODE_VALID. -/
theorem bencOfAnEmptyTextSucceeds : Obligations.BencOfAnEmptyTextSucceeds := by
  intro s h
  rw [exec_eq, afterCommand, benc_of_empty h]
  rfl

/-- Settles O25: the loop runs over the whole text, and its bits are stored with zeros to the end of the last byte. -/
theorem bencStoresTheConcatenatedCodewords : Obligations.BencStoresTheConcatenatedCodewords := by
  intro s htext hvalid hset hfits out free
  have hloop : encodeLoop s.code 0 0 s.textOperand = (out, none) := by
    simpa using encodeLoop_append [] 0 hset ((Nat.zero_add _).trans_le hfits)
  refine ⟨encodeBits_eq_codewords hset, s.bits.putBits free (out ++ padding out.length), ?_, fun j hj => ?_,
    fun j hout hj => ?_, fun b hb => ?_⟩
  · rw [exec_eq, afterCommand, benc_of_loop_done htext hvalid hloop]
    rfl
  · rw [Memory.bitAt_putBits, List.getElem?_append_left hj, List.getElem?_eq_getElem hj, Option.getD_some]
  · rw [Memory.bitAt_putBits, getElem?_append_padding hout hj, Option.getD_some]
  · rw [Memory.byteAt_putBits, length_append_padding, if_neg (by omega)]
    rfl

/-- When the loop stops at the byte after `before`, BITS holds the codewords of `before` and its other bits are kept (R169). -/
theorem exec_benc_of_stop {s : State} {before rest : List Byte} {f : Raise} (hvalid : s.codeValid = true)
    (htext : s.textOperand = before ++ rest) (hset : ∀ x ∈ before, tableGet s.code x ≠ [])
    (hfits : (codewords s.code before).length ≤ Config.bitCap)
    (hstop : encodeLoop s.code before.length (codewords s.code before).length rest = ([], some f)) :
    ∃ m, exec .benc s = .next { s with bits := m, bitLen := 0#32, empty := false, err := f.failure.code, errInfo := f.info } ∧
      ∀ j, m.bitAt (Config.unwrittenBits s.resets) j = (codewords s.code before)[j]?.getD (s.bitAt j) := by
  have hloop : encodeLoop s.code 0 0 s.textOperand = (codewords s.code before, some f) := by
    rw [htext, encodeLoop_append rest 0 hset ((Nat.zero_add _).trans_le hfits), Nat.zero_add, Nat.zero_add, hstop,
      List.append_nil]
  have hnonempty : s.textOperand ≠ [] := fun hnil => by
    rw [hnil, encodeLoop_nil] at hloop
    exact nomatch congrArg Prod.snd hloop
  refine ⟨_, ?_, Memory.bitAt_putBits _ s.bits _⟩
  rw [exec_eq, afterCommand, benc_of_loop_failed (textLen_ne_zero_of_textOperand hnonempty) hvalid hloop]
  rfl

/-- Settles O27: without a code map BITS is not written, and the two failures of the loop stop it at their byte. -/
theorem failedBencLeavesTheCodewordsBefore : Obligations.FailedBencLeavesTheCodewordsBefore := by
  refine ⟨fun s htext hno => ?_, fun s before after b hvalid htext hset hfits => ⟨fun hb => ?_, fun hb hfull => ?_⟩⟩
  · rw [exec_eq, afterCommand, benc_of_no_code htext hno]
    rfl
  · exact exec_benc_of_stop hvalid htext hset hfits (encodeLoop_cons_of_unset hb _ _ after)
  · exact exec_benc_of_stop hvalid htext hset hfits (encodeLoop_cons_of_no_room hb _ hfull after)

end Sys2Proof.Machine

/-! SUPPORT. The bitstream decoder of 44_bitstream_decoder.md: the walk along a path of the tree and along the codewords of a text
(R183, R185, R187), the tree of one leaf (R184), what every decoding keeps to, and the command BDEC (R180, R188). -/

namespace Sys2Proof.Machine

/-- The result of a decoding that emits the symbols `T` and goes on as `d`. -/
def emitThen (T : List Byte) (d : List Byte × Option Raise) : List Byte × Option Raise := (T ++ d.1, d.2)

theorem emitThen_emitThen (A T : List Byte) (d : List Byte × Option Raise) :
    emitThen A (emitThen T d) = emitThen (A ++ T) d := by
  simp [emitThen]

theorem codewords_append (code : Vector BitString 256) (A T : List Byte) :
    codewords code (A ++ T) = codewords code A ++ codewords code T := List.flatMap_append

/-! ## Paths that end at a leaf (R151) -/

theorem descend_cons_eq_some_iff {nodes : List Node} {n m : Nat} {b : Bool} {p : BitString} :
    descend nodes n (b :: p) = some m ↔ (nodeAt nodes n).leaf = false ∧ descend nodes (childFor nodes n b) p = some m := by
  rw [descend]
  cases (nodeAt nodes n).leaf <;> simp

/-- A path to an internal node begins at one. -/
theorem leaf_eq_false_of_descend {nodes : List Node} {n m : Nat} {p : BitString} (hp : descend nodes n p = some m)
    (hm : (nodeAt nodes m).leaf = false) : (nodeAt nodes n).leaf = false := by
  cases p with
  | nil => rwa [Option.some.inj hp]
  | cons b p => exact (descend_cons_eq_some_iff.1 hp).1

/-- A path that goes on leads to an internal node first. -/
theorem exists_internal_of_descend_append {nodes : List Node} {n m : Nat} {p q : BitString}
    (h : descend nodes n (p ++ q) = some m) (hq : q ≠ []) :
    ∃ k, descend nodes n p = some k ∧ (nodeAt nodes k).leaf = false ∧ descend nodes k q = some m := by
  rw [descend_append] at h
  obtain ⟨k, hp, hrest⟩ := Option.bind_eq_some_iff.1 h
  obtain ⟨b, q, rfl⟩ := List.exists_cons_of_ne_nil hq
  exact ⟨k, hp, (descend_cons_eq_some_iff.1 hrest).1, hrest⟩

/-- A path that does not end where it begins ends at a smaller index. -/
theorem Arena.descend_lt {K : Nat} {nodes : List Node} (h : Arena K nodes) {n m : Nat} (hn : n < nodes.length) {p : BitString}
    (hp : descend nodes n p = some m) (hne : p ≠ []) : m < n := by
  induction p generalizing n with
  | nil => exact absurd rfl hne
  | cons b p ih =>
    obtain ⟨hleaf, hrest⟩ := descend_cons_eq_some_iff.1 hp
    have hchild := h.childFor_lt hn hleaf b
    by_cases hnil : p = []
    · subst hnil
      exact Option.some.inj hrest ▸ hchild
    · exact (ih (hchild.trans hn) hrest hnil).trans hchild

/-! ## The walk along a path (R183) -/

section
variable {nodes : List Node} {top : Nat} {l : Bool} {j m start : Nat}

theorem decodeWalk_cons_of_internal {cur : Nat} {b : Bool} (h : (nodeAt nodes (childFor nodes cur b)).leaf = false)
    (B : BitString) : decodeWalk nodes top l j m start cur (b :: B) =
      decodeWalk nodes top l (j + 1) m start (childFor nodes cur b) B := by
  rw [childFor] at h ⊢
  simp only [decodeWalk, h, Bool.false_eq_true, if_false]

/-- The bit that reaches a leaf completes a codeword: TEXT is full, or the symbol is emitted and the walk is back at the
root. -/
theorem decodeWalk_cons_of_leaf {cur : Nat} {b : Bool} (h : (nodeAt nodes (childFor nodes cur b)).leaf = true)
    (B : BitString) : decodeWalk nodes top l j m start cur (b :: B) =
      if m = Config.textCap then ([], some ⟨.capacityExceeded, BitVec.ofNat 32 j⟩)
      else emitThen [(nodeAt nodes (childFor nodes cur b)).sym]
        (decodeWalk nodes top l (j + 1) (m + 1) (j + 1) top B) := by
  rw [childFor] at h ⊢
  simp only [decodeWalk, h, if_true]
  rfl

/-- Along a path to an internal node nothing is emitted. -/
theorem decodeWalk_append_of_internal {n k : Nat} {p : BitString} (hp : descend nodes n p = some k)
    (hk : (nodeAt nodes k).leaf = false) (B : BitString) :
    decodeWalk nodes top l j m start n (p ++ B) = decodeWalk nodes top l (j + p.length) m start k B := by
  induction p generalizing n j with
  | nil =>
    obtain rfl := Option.some.inj hp
    rfl
  | cons b p ih =>
    have hrest := (descend_cons_eq_some_iff.1 hp).2
    rw [List.cons_append, decodeWalk_cons_of_internal (leaf_eq_false_of_descend hrest hk), ih hrest, List.length_cons,
      Nat.add_assoc, Nat.add_comm 1]

/-- A path to a leaf is one codeword, which its last bit completes. -/
theorem decodeWalk_append_of_leaf {n k : Nat} {p : BitString} (hp : descend nodes n p = some k) (hne : p ≠ [])
    (hk : (nodeAt nodes k).leaf = true) (B : BitString) :
    decodeWalk nodes top l j m start n (p ++ B) =
      if m = Config.textCap then ([], some ⟨.capacityExceeded, BitVec.ofNat 32 (j + p.length - 1)⟩)
      else emitThen [(nodeAt nodes k).sym] (decodeWalk nodes top l (j + p.length) (m + 1) (j + p.length) top B) := by
  obtain ⟨q, b, rfl⟩ := (List.eq_nil_or_concat' p).resolve_left hne
  obtain ⟨i, hq, hi, hlast⟩ := exists_internal_of_descend_append hp (List.cons_ne_nil b [])
  obtain rfl : childFor nodes i b = k := Option.some.inj (descend_cons_eq_some_iff.1 hlast).2
  rw [List.append_assoc, decodeWalk_append_of_internal hq hi, List.singleton_append,
    decodeWalk_cons_of_leaf hk, List.length_append, List.length_singleton, ← Nat.add_assoc,
    Nat.add_sub_cancel]

end

/-! ## The walk along codewords (R183, R185, R187) -/

/-- The decoding of the bits `B` that begin at bit index `j`, with `m` symbols emitted and the walk at the root of the tree of
`F`. -/
def walkFromRoot (F : Vector Word 256) (l : Bool) (j m : Nat) (B : BitString) : List Byte × Option Raise :=
  decodeWalk (buildTree F).1 (root (freqSymbols F)) l j m j (root (freqSymbols F)) B

theorem decodeBits_eq_walkFromRoot {F : Vector Word 256} (hF : 2 ≤ freqSymbols F) (l : Bool) (B : BitString) :
    decodeBits B (buildTree F).1 (buildTree F).2 l = walkFromRoot F l 0 0 B := by
  rw [decodeBits, buildTree_snd, if_neg (by omega), if_neg (by omega)]
  rfl

/-- The bits end with a codeword, or there are none (R185). -/
@[simp] theorem walkFromRoot_nil (F : Vector Word 256) (l : Bool) (j m : Nat) : walkFromRoot F l j m [] = ([], none) := by
  simp [walkFromRoot, decodeWalk]

section
variable {F : Vector Word 256} (hF : 2 ≤ freqSymbols F) {x : Byte} (hx : tableGet F x ≠ 0#32)
include hF

/-- The arena of the tree holds its leaves and its root. -/
theorem arena_buildTree : Arena (freqSymbols F) (buildTree F).1 ∧
    freqSymbols F ≤ (buildTree F).1.length ∧ root (freqSymbols F) < (buildTree F).1.length := by
  obtain ⟨e, h⟩ := mergeInv_buildTree (F := F) (by omega)
  refine ⟨h.arena, h.leaves_le, ?_⟩
  rw [root_eq (by omega), ← h.idx_eq]
  exact h.idx_lt List.mem_cons_self

include hx

theorem walkFromRoot_codeword (l : Bool) (j m : Nat) (B : BitString) :
    walkFromRoot F l j m (tableGet (codeMapOf F) x ++ B) =
      if m = Config.textCap then
        ([], some ⟨.capacityExceeded, BitVec.ofNat 32 (j + (tableGet (codeMapOf F) x).length - 1)⟩)
      else emitThen [x] (walkFromRoot F l (j + (tableGet (codeMapOf F) x).length) (m + 1) B) := by
  obtain ⟨harena, hlen, -⟩ := arena_buildTree hF
  obtain ⟨n, hn, rfl, hpath⟩ := exists_leaf_descend_codeMapOf hF hx
  exact decodeWalk_append_of_leaf hpath (tableGet_codeMapOf_ne_nil_iff.2 hx)
    ((harena.leaf_iff n (hn.trans_le hlen)).2 hn) B

/-- The walk ends inside a codeword: strict mode reports the first bit of it, lenient mode drops it (R185). -/
theorem walkFromRoot_leftover {p : BitString} (hne : p ≠ []) (hprefix : p <+: tableGet (codeMapOf F) x)
    (hproper : p ≠ tableGet (codeMapOf F) x) (l : Bool) (j m : Nat) :
    walkFromRoot F l j m p = ([], if l then none else some ⟨.malformedBitStream, BitVec.ofNat 32 j⟩) := by
  obtain ⟨harena, -, hroot⟩ := arena_buildTree hF
  obtain ⟨n, -, -, hpath⟩ := exists_leaf_descend_codeMapOf hF hx
  obtain ⟨q, hq⟩ := hprefix
  have hqne : q ≠ [] := fun hnil => hproper (by rw [← hq, hnil, List.append_nil])
  obtain ⟨k, hp, hk, -⟩ := exists_internal_of_descend_append (hq ▸ hpath) hqne
  have hinside : k ≠ root (freqSymbols F) := (harena.descend_lt hroot hp hne).ne
  rw [walkFromRoot, ← List.append_nil p, decodeWalk_append_of_internal hp hk, decodeWalk]
  cases l <;> simp [hinside]

end

section
variable {F : Vector Word 256} (hF : 2 ≤ freqSymbols F) {T : List Byte} (hT : ∀ x ∈ T, tableGet F x ≠ 0#32)
include hF hT

/-- Codewords of symbols that fit TEXT are emitted one after another (R183). -/
theorem walkFromRoot_codewords (l : Bool) (j : Nat) {m : Nat} (hm : m + T.length ≤ Config.textCap) (B : BitString) :
    walkFromRoot F l j m (codewords (codeMapOf F) T ++ B) =
      emitThen T (walkFromRoot F l (j + (codewords (codeMapOf F) T).length) (m + T.length) B) := by
  induction T generalizing j m with
  | nil => rfl
  | cons x T ih =>
    obtain ⟨hx, hT⟩ := List.forall_mem_cons.1 hT
    rw [List.length_cons] at hm
    rw [codewords_cons, List.append_assoc, walkFromRoot_codeword hF hx, if_neg (by omega), ih hT _ (by omega),
      emitThen_emitThen, List.length_append, List.length_cons, Nat.add_assoc j, Nat.add_assoc m, Nat.add_comm 1]
    rfl

theorem decodeBits_codewords_append (hlen : T.length ≤ Config.textCap) (B : BitString) (l : Bool) :
    decodeBits (codewords (codeMapOf F) T ++ B) (buildTree F).1 (buildTree F).2 l =
      emitThen T (walkFromRoot F l (codewords (codeMapOf F) T).length T.length B) := by
  rw [decodeBits_eq_walkFromRoot hF, walkFromRoot_codewords hF hT l 0 ((Nat.zero_add _).trans_le hlen), Nat.zero_add,
    Nat.zero_add]

end

/-- Settles O33: after the codewords of the text the walk ends inside a codeword that begins there. -/
theorem leftoverBitsStrictAndLenient : Obligations.LeftoverBitsStrictAndLenient := by
  intro F T b p hF hT hlen hb hne hprefix hproper B
  rw [decodeBits_codewords_append hF hT hlen, decodeBits_codewords_append hF hT hlen,
    walkFromRoot_leftover hF hb hne hprefix hproper, walkFromRoot_leftover hF hb hne hprefix hproper]
  simp [emitThen, B]

/-- Settles O36: the codeword after TEXT_CAP symbols is completed when TEXT is full. -/
theorem decodedTextIsCapped : Obligations.DecodedTextIsCapped := by
  intro F T B l hF hT hlen
  obtain ⟨A, x, rfl⟩ := (List.eq_nil_or_concat' T).resolve_left (List.ne_nil_of_length_eq_add_one hlen)
  obtain ⟨hA, hx⟩ := List.forall_mem_append.1 hT
  have hfull : A.length = Config.textCap := by simpa using hlen
  rw [codewords_append, codewords_cons, codewords_nil, List.append_nil, List.append_assoc,
    decodeBits_codewords_append hF hA hfull.le, walkFromRoot_codeword hF (hx x List.mem_cons_self), if_pos hfull,
    ← hfull, List.take_left, List.length_append]
  simp [emitThen]

/-! ## The tree of one leaf (R184) -/

theorem decodeBits_of_single {F : Vector Word 256} (hF : freqSymbols F = 1) {u : Byte} (hu : tableGet F u ≠ 0#32)
    (B : BitString) (l : Bool) : decodeBits B (buildTree F).1 (buildTree F).2 l = decodeSingle u 0 B := by
  obtain ⟨n, hn, rfl⟩ := present_iff_exists_leaf.1 hu
  obtain rfl : n = 0 := by omega
  rw [decodeBits, buildTree_snd, hF]
  rfl

theorem decodeSingle_nil (u : Byte) (j : Nat) : decodeSingle u j [] = ([], none) := rfl

theorem decodeSingle_one (u : Byte) (j : Nat) (B : BitString) :
    decodeSingle u j (true :: B) = ([], some ⟨.malformedBitStream, BitVec.ofNat 32 j⟩) := rfl

theorem decodeSingle_zero (u : Byte) (j : Nat) (B : BitString) :
    decodeSingle u j (false :: B) = if j = Config.textCap then ([], some ⟨.capacityExceeded, BitVec.ofNat 32 j⟩)
      else emitThen [u] (decodeSingle u (j + 1) B) := rfl

/-- Zeros whose symbols fit TEXT are emitted one after another. -/
theorem decodeSingle_zeros (u : Byte) {j n : Nat} (h : j + n ≤ Config.textCap) (B : BitString) :
    decodeSingle u j (List.replicate n false ++ B) = emitThen (List.replicate n u) (decodeSingle u (j + n) B) := by
  induction n generalizing j with
  | zero => rfl
  | succ n ih =>
    rw [List.replicate_succ, List.cons_append, decodeSingle_zero, if_neg (by omega), ih (by omega), emitThen_emitThen,
      Nat.add_assoc, Nat.add_comm 1]
    rfl

theorem decodeBits_zeros {F : Vector Word 256} (hF : freqSymbols F = 1) {u : Byte} (hu : tableGet F u ≠ 0#32) {n : Nat}
    (hn : n ≤ Config.textCap) (B : BitString) (l : Bool) :
    decodeBits (List.replicate n false ++ B) (buildTree F).1 (buildTree F).2 l =
      emitThen (List.replicate n u) (decodeSingle u n B) := by
  rw [decodeBits_of_single hF hu, decodeSingle_zeros u ((Nat.zero_add n).trans_le hn), Nat.zero_add]

theorem decodeBits_only_zeros {F : Vector Word 256} (hF : freqSymbols F = 1) {u : Byte} (hu : tableGet F u ≠ 0#32) {n : Nat}
    (hn : n ≤ Config.textCap) (l : Bool) :
    decodeBits (List.replicate n false) (buildTree F).1 (buildTree F).2 l = (List.replicate n u, none) := by
  rw [← List.append_nil (List.replicate n false), decodeBits_zeros hF hu hn, decodeSingle_nil, emitThen, List.append_nil]

/-- Settles O34: after the zeros that fit TEXT the bit string ends, or a 1 is malformed, or one more zero is too many. -/
theorem singleSymbolDecoding : Obligations.SingleSymbolDecoding := by
  intro F u l hF hu decodes
  refine ⟨fun n hn => decodeBits_only_zeros hF hu hn l, fun n B hn => ?_, fun B => ?_⟩
  · refine (decodeBits_zeros hF hu hn _ l).trans ?_
    rw [decodeSingle_one, emitThen, List.append_nil]
  · rw [List.replicate_succ', List.append_assoc, List.singleton_append]
    refine (decodeBits_zeros hF hu le_rfl _ l).trans ?_
    rw [decodeSingle_zero, if_pos rfl, emitThen, List.append_nil]

theorem eq_of_freqSymbols_eq_one {F : Vector Word 256} (hF : freqSymbols F = 1) {x y : Byte} (hx : tableGet F x ≠ 0#32)
    (hy : tableGet F y ≠ 0#32) : x = y := by
  obtain ⟨n, hn, rfl⟩ := present_iff_exists_leaf.1 hx
  obtain ⟨m, hm, rfl⟩ := present_iff_exists_leaf.1 hy
  rw [show n = m by omega]

/-- Every symbol of a text over the one symbol is one 0 (R153). -/
theorem codewords_of_single {F : Vector Word 256} (hF : freqSymbols F = 1) {T : List Byte}
    (hT : ∀ x ∈ T, tableGet F x ≠ 0#32) : codewords (codeMapOf F) T = List.replicate T.length false := by
  induction T with
  | nil => rfl
  | cons x T ih =>
    obtain ⟨hx, hT⟩ := List.forall_mem_cons.1 hT
    rw [codewords_cons, tableGet_codeMapOf_of_single hF hx, ih hT]
    rfl

/-! ## The tree without a node (R182) -/

theorem freqSymbols_eq_zero_iff {F : Vector Word 256} : freqSymbols F = 0 ↔ ∀ x : Byte, tableGet F x = 0#32 := by
  constructor
  · intro hF x
    by_contra hx
    obtain ⟨n, hn, -⟩ := present_iff_exists_leaf.1 hx
    omega
  · intro h
    by_contra hF
    exact present_iff_exists_leaf.2 ⟨0, Nat.pos_of_ne_zero hF, rfl⟩ (h _)

theorem decodeBits_of_no_symbol {F : Vector Word 256} (hF : freqSymbols F = 0) (B : BitString) (l : Bool) :
    decodeBits B (buildTree F).1 (buildTree F).2 l =
      ([], if B = [] ∨ l = true then none else some ⟨.malformedBitStream, 0#32⟩) := by
  simp [decodeBits, buildTree_snd, hF]

/-! ## Decoding the codewords of a text (R190) -/

/-- The codewords of a text that fits TEXT decode to the text in both modes, whatever the number of symbols. -/
theorem decodeBits_codewords {F : Vector Word 256} {T : List Byte} (hT : ∀ x ∈ T, tableGet F x ≠ 0#32)
    (hlen : T.length ≤ Config.textCap) (l : Bool) :
    decodeBits (codewords (codeMapOf F) T) (buildTree F).1 (buildTree F).2 l = (T, none) := by
  obtain hK | hK | hK : freqSymbols F = 0 ∨ freqSymbols F = 1 ∨ 2 ≤ freqSymbols F := by omega
  · obtain rfl : T = [] := List.eq_nil_iff_forall_not_mem.2 fun x hx => hT x hx (freqSymbols_eq_zero_iff.1 hK x)
    simp [decodeBits_of_no_symbol hK]
  · have hu := present_iff_exists_leaf.2 ⟨0, hK.symm ▸ Nat.one_pos, rfl⟩
    have hrepeat := List.eq_replicate_iff.2 ⟨rfl, fun x hx => eq_of_freqSymbols_eq_one hK (hT x hx) hu⟩
    rw [codewords_of_single hK hT, decodeBits_only_zeros hK hu hlen, ← hrepeat]
  · rw [← List.append_nil (codewords _ T), decodeBits_codewords_append hK hT hlen, walkFromRoot_nil, emitThen,
      List.append_nil]

/-- Settles O31: a byte has a codeword exactly when it is present, and the encoding is the concatenation of the codewords. -/
theorem decodingInvertsEncoding : Obligations.DecodingInvertsEncoding := by
  intro F T l hT hlen
  exact ⟨_, encodeBits_eq_codewords hT, decodeBits_codewords (fun b hb => tableGet_codeMapOf_ne_nil_iff.1 (hT b hb)) hlen l⟩

/-! ## What every decoding keeps to (R185, R187) -/

/-- After `m` symbols a decoding stays within TEXT, and only the two failures of the walk can end it. -/
def KeepsToText (m : Nat) (d : List Byte × Option Raise) : Prop :=
  m + d.1.length ≤ Config.textCap ∧
    ∀ r, d.2 = some r → r.failure = .malformedBitStream ∨ r.failure = .capacityExceeded

theorem keepsToText_malformed {m : Nat} (hm : m ≤ Config.textCap) (v : Word) :
    KeepsToText m ([], some ⟨.malformedBitStream, v⟩) :=
  ⟨hm, fun _ hr => .inl (Option.some.inj hr ▸ rfl)⟩

theorem keepsToText_full {m : Nat} (hm : m ≤ Config.textCap) (v : Word) :
    KeepsToText m ([], some ⟨.capacityExceeded, v⟩) :=
  ⟨hm, fun _ hr => .inr (Option.some.inj hr ▸ rfl)⟩

theorem keepsToText_end {m : Nat} (hm : m ≤ Config.textCap) : KeepsToText m ([], none) := ⟨hm, nofun⟩

theorem KeepsToText.emit {m : Nat} {d : List Byte × Option Raise} (h : KeepsToText (m + 1) d) (x : Byte) :
    KeepsToText m (emitThen [x] d) := by
  obtain ⟨hlen, hfailure⟩ := h
  refine ⟨?_, hfailure⟩
  rw [emitThen, List.length_append, List.length_singleton]
  omega

theorem decodeSingle_keepsToText (u : Byte) {j : Nat} (hj : j ≤ Config.textCap) (B : BitString) :
    KeepsToText j (decodeSingle u j B) := by
  induction B generalizing j with
  | nil => exact keepsToText_end hj
  | cons b B ih =>
    cases b with
    | true => exact keepsToText_malformed hj _
    | false =>
      rw [decodeSingle_zero]
      split
      · exact keepsToText_full hj _
      · exact (ih (by omega)).emit u

theorem decodeWalk_keepsToText (nodes : List Node) (top : Nat) (l : Bool) (j : Nat) {m : Nat} (hm : m ≤ Config.textCap)
    (start cur : Nat) (B : BitString) : KeepsToText m (decodeWalk nodes top l j m start cur B) := by
  induction B generalizing j m start cur with
  | nil =>
    rw [decodeWalk]
    split
    · exact keepsToText_malformed hm _
    · exact keepsToText_end hm
  | cons b B ih =>
    cases h : (nodeAt nodes (childFor nodes cur b)).leaf with
    | false =>
      rw [decodeWalk_cons_of_internal h]
      exact ih _ hm _ _
    | true =>
      rw [decodeWalk_cons_of_leaf h]
      split
      · exact keepsToText_full hm _
      · exact (ih _ (by omega) _ _).emit _

theorem decodeBits_keepsToText (B : BitString) (nodes : List Node) (K : Nat) (l : Bool) :
    KeepsToText 0 (decodeBits B nodes K l) := by
  have hzero : 0 ≤ Config.textCap := Nat.zero_le _
  rw [decodeBits]
  split
  · split
    · exact keepsToText_end hzero
    · exact keepsToText_malformed hzero _
  · split
    · exact decodeSingle_keepsToText _ hzero B
    · exact decodeWalk_keepsToText _ _ _ _ hzero _ _ B

/-! ## BDEC on a table that passes validation (R180, R188) -/

section
variable {l c : Bool} {s : State} (hlegal : legalTable s.freq) (htotal : totalOk c s.freq s.symCount) {out : List Byte}
include hlegal htotal

theorem bdec_of_failed {r : Raise}
    (h : decodeBits s.bitsOperand (buildTree s.freq).1 (buildTree s.freq).2 l = (out, some r)) :
    bdec l c s = { s with
      treeValid := false, textLen := 0#32, node := (buildTree s.freq).1
      nsym := BitVec.ofNat 9 (freqSymbols s.freq), text := s.text.putBytes 0 out }.raise r := by
  rw [← buildTree_snd]
  obtain ⟨r', hr, -⟩ | ⟨-, out', o, hdecode, ⟨r', rfl, hbdec⟩ | ⟨rfl, -⟩⟩ := bdec_cases l c s
  · cases hr.symm.trans (validFreq_eq_none_iff.2 ⟨hlegal, htotal⟩)
  · cases hdecode.symm.trans h
    exact hbdec
  · cases hdecode.symm.trans h

theorem bdec_of_decoded
    (h : decodeBits s.bitsOperand (buildTree s.freq).1 (buildTree s.freq).2 l = (out, none)) :
    bdec l c s = { s with
      treeValid := false, textLen := BitVec.ofNat 32 out.length, node := (buildTree s.freq).1
      nsym := BitVec.ofNat 9 (freqSymbols s.freq)
      text := s.text.putBytes 0 out }.succeed (decide (freqSymbols s.freq = 0)) := by
  rw [← beq_eq_decide, ← emptyTree, ← buildTree_snd]
  obtain ⟨r', hr, -⟩ | ⟨-, out', o, hdecode, ⟨r', rfl, -⟩ | ⟨rfl, hbdec⟩⟩ := bdec_cases l c s
  · cases hr.symm.trans (validFreq_eq_none_iff.2 ⟨hlegal, htotal⟩)
  · cases hdecode.symm.trans h
  · cases hdecode.symm.trans h
    exact hbdec

end

/-- Settles O30: the codewords decode to the text, which is stored from index 0 on. -/
theorem bdecRecoversTheEncodedText : Obligations.BdecRecoversTheEncodedText := by
  intro l c s T hlegal htotal hT hlen hbits
  have hdecode := decodeBits_codewords hT hlen l
  rw [← hbits] at hdecode
  refine ⟨_, ?_, Memory.byteAt_putBytes_zero _ s.text T⟩
  rw [exec_eq, afterCommand, bdec_of_decoded hlegal htotal hdecode]
  rfl

/-- Settles O37: no decoding emits more than TEXT holds or fails otherwise, and what it emits is stored from index 0 on. -/
theorem failedBdecLeavesTheSymbolsBefore : Obligations.FailedBdecLeavesTheSymbolsBefore := by
  intro l c s out r hlegal htotal hdecode
  have hkeeps := decodeBits_keepsToText s.bitsOperand (buildTree s.freq).1 (buildTree s.freq).2 l
  rw [hdecode] at hkeeps
  obtain ⟨hlen, hfailure⟩ := hkeeps
  refine ⟨hfailure r rfl, (Nat.zero_add _).symm.trans_le hlen, _, ?_, Memory.byteAt_putBytes_zero _ s.text out⟩
  rw [exec_eq, afterCommand, bdec_of_failed hlegal htotal hdecode]
  rfl

theorem bitsOperand_eq_nil_iff {s : State} : s.bitsOperand = [] ↔ s.bitLen = 0#32 := by
  simp [State.bitsOperand, BitVec.toNat_eq]

/-- Settles O35: with no symbol nothing is emitted, and only a leftover bit in strict mode is a failure. -/
theorem decodingWithoutSymbols : Obligations.DecodingWithoutSymbols := by
  intro l c s hzero htotal
  have hF := freqSymbols_eq_zero_iff.2 hzero
  have hlegal : legalTable s.freq := fun x => by rw [hzero x]; rfl
  have hdecode := decodeBits_of_no_symbol hF s.bitsOperand l
  simp only [bitsOperand_eq_nil_iff] at hdecode
  refine ⟨fun hdone => ⟨(buildTree s.freq).1, ?_⟩, fun hbits hstrict => ⟨(buildTree s.freq).1, ?_⟩⟩
  · rw [if_pos hdone] at hdecode
    rw [exec_eq, afterCommand, bdec_of_decoded hlegal htotal hdecode, hF]
    rfl
  · rw [if_neg (by simp [hbits, hstrict])] at hdecode
    rw [exec_eq, afterCommand, bdec_of_failed hlegal htotal hdecode, hF]
    rfl

end Sys2Proof.Machine

/-! SUPPORT. Control, 45_control_and_facade.md: the step of an issued command (R201), the command CLR (R200), and what each
command needs and does to the valid flags (R206). -/

namespace Sys2Proof.Machine

/-! ## The step of an issued command (R201) -/

theorem afterWord_of_decode {w : Word} {i : Instr} (h : decode w = .ok i) (s : State) :
    afterWord w s = afterCommand i s := by
  simp only [afterWord, h]

theorem step_issued {s t : State} {w : Word} {i : Instr} {rest : List HostEvent} (hp : s.pending = commandWrite w :: rest)
    (hdecode : decode w = .ok i) (hexec : exec i { s with pending := rest } = .next t) :
    step s = .next (t.respond .wrote) := by
  rw [step_commandWrite hp, afterWord_of_decode hdecode, exec_eq_next hexec]

theorem withFetchWord_toNat (s : State) (n : Nat) (w : Word) : s.withFetchWord n w.toNat = s.issueNext w := by
  rw [State.withFetchWord, BitVec.ofNat_toNat, BitVec.setWidth_eq]

/-- Settles O4: an issued word runs with its event taken off, and the state without the event `withFetchWord` places is the
one it was placed in. -/
theorem stepRunsTheIssuedCommand : Obligations.StepRunsTheIssuedCommand := by
  refine ⟨fun _ _ _ _ _ => step_issued, fun s t w i n hdecode hexec => ?_⟩
  rw [withFetchWord_toNat]
  exact step_issued (s.issueNext_pending w) hdecode hexec

/-! ## CLR (R200) -/

/-- Settles O8: CLR writes the reset block, but for the two buffers and the arena. -/
theorem clrRestoresRegistersAndTables : Obligations.ClrRestoresRegistersAndTables := by
  intro s
  rw [exec_eq, afterCommand, clr]
  rfl

/-! ## The valid flags (R206) -/

theorem tbld_validFlags (c : Bool) (s : State) :
    (tbld c s).treeValid = decide ((tbld c s).err = 0#8) ∧ (tbld c s).codeValid = s.codeValid := by
  obtain ⟨r, -, h⟩ | ⟨-, h⟩ := tbld_cases c s <;> rw [h]
  · simp [Failure.code_ne_zero]
  · simp

/-- `CASN` succeeds exactly on a valid tree, which it discards in both cases (R150). -/
theorem casn_validFlags (s : State) :
    ((casn s).err = 0#8 ↔ s.treeValid = true) ∧ (casn s).treeValid = false ∧
      (casn s).codeValid = decide ((casn s).err = 0#8) := by
  cases htree : s.treeValid with
  | true => simp [casn_of_valid htree]
  | false => simp [casn_of_no_tree htree, htree, Failure.code_ne_zero]

theorem benc_validFlags (s : State) : (benc s).treeValid = s.treeValid ∧ (benc s).codeValid = s.codeValid := by
  obtain ⟨_, _, _, _, _, h⟩ := benc_writes s
  rw [h]
  exact ⟨rfl, rfl⟩

/-- `BENC` without a code map succeeds only on the empty text (R165). -/
theorem codeValid_or_empty_of_benc_err {s : State} (h : (benc s).err = 0#8) : s.codeValid = true ∨ s.textLen = 0#32 := by
  by_contra! hno
  obtain ⟨hvalid, htext⟩ := hno
  rw [benc_of_no_code htext (Bool.eq_false_of_not_eq_true hvalid)] at h
  exact absurd h (Failure.code_ne_zero .sequenceError)

theorem bdec_validFlags (l c : Bool) (s : State) :
    (bdec l c s).treeValid = false ∧ (bdec l c s).codeValid = s.codeValid := by
  obtain ⟨_, _, _, _, _, _, _, h⟩ := bdec_writes l c s
  rw [h]
  exact ⟨rfl, rfl⟩

/-- `BDEC` validates the table before it decodes (R181). -/
theorem valid_of_bdec_err {l c : Bool} {s : State} (h : (bdec l c s).err = 0#8) :
    legalTable s.freq ∧ totalOk c s.freq s.symCount := by
  rw [← validFreq_eq_none_iff]
  cases hvalid : validFreq s.freq c s.symCount with
  | none => rfl
  | some r =>
    rw [bdec_of_invalid l hvalid] at h
    exact absurd h (Failure.code_ne_zero r.failure)

/-- Settles O45: the rows of R206, command by command; FCNT and CLR have no failure (R120, R200). -/
theorem validFlagsFollowTheCommandTable : Obligations.ValidFlagsFollowTheCommandTable := by
  intro s t
  refine ⟨fun h => ?_, fun c h => ?_, fun h => ?_, fun h => ?_, fun l c h => ?_, fun h => ?_⟩ <;>
    obtain rfl := exec_eq_next h
  · exact ⟨rfl, rfl, rfl⟩
  · exact ⟨tbld_err_eq_zero_iff c s, tbld_validFlags c s⟩
  · exact casn_validFlags s
  · exact ⟨codeValid_or_empty_of_benc_err, benc_validFlags s⟩
  · exact ⟨valid_of_bdec_err, bdec_validFlags l c s⟩
  · exact ⟨rfl, rfl, rfl⟩

end Sys2Proof.Machine

/-! SUPPORT. The properties of 50_properties.md about a table's tree and code map: weights (R217), that no codeword begins
another (R216), unique decodability (R226), completeness (R224) and the length of an encoding (R223). -/

namespace Sys2Proof.Machine

/-! ## Weights (R217) -/

section
variable {K total : Nat} {nodes : List Node} {e : QueueEntry}

theorem MergeInv.length_eq (h : MergeInv K total nodes [e]) : nodes.length = 2 * K - 1 := by
  have hcount := h.count
  rw [List.length_singleton] at hcount
  omega

/-- The weight of an internal node as an integer (R133, R140). -/
theorem MergeInv.weight_internal (h : MergeInv K total nodes [e]) {n : Nat} (hn : n < nodes.length) (hK : K ≤ n) :
    (nodeAt nodes n).weight.toNat =
      (nodeAt nodes (nodeAt nodes n).left.toNat).weight.toNat +
        (nodeAt nodes (nodeAt nodes n).right.toNat).weight.toNat := by
  rw [h.arena.weight_eq n hn hK, children_of_internal (h.leaf_eq_false hn hK)]
  simp

end

/-- Settles O16: the merges keep the total, and each new weight is an integer sum. Legality is not needed: no total of 32-bit
entries reaches 2^40. -/
theorem weightsAreConserved : Obligations.WeightsAreConserved := by
  intro F _ hK N
  obtain ⟨e, h⟩ := mergeInv_buildTree hK
  refine ⟨?_, fun n hKn hn => h.weight_internal (h.length_eq.symm ▸ hn) hKn⟩
  rw [root_eq hK]
  exact h.root_weight

/-! ## Prefix-freedom (R216) -/

/-- A symbol whose codeword begins another's is that other one (R216): two paths to leaves of one tree, or the one
symbol of K = 1. -/
theorem eq_of_codeword_prefix {F : Vector Word 256} {x y : Byte} (hx : tableGet F x ≠ 0#32) (hy : tableGet F y ≠ 0#32)
    (h : tableGet (codeMapOf F) x <+: tableGet (codeMapOf F) y) : x = y := by
  obtain hF | hF | hF : freqSymbols F = 0 ∨ freqSymbols F = 1 ∨ 2 ≤ freqSymbols F := by omega
  · exact absurd (freqSymbols_eq_zero_iff.1 hF x) hx
  · exact eq_of_freqSymbols_eq_one hF hx hy
  · obtain ⟨harena, hlen, -⟩ := arena_buildTree hF
    obtain ⟨n, hn, rfl, hpathn⟩ := exists_leaf_descend_codeMapOf hF hx
    obtain ⟨m, -, rfl, hpathm⟩ := exists_leaf_descend_codeMapOf hF hy
    obtain ⟨q, hq⟩ := h
    by_cases hnil : q = []
    · rw [hnil, List.append_nil] at hq
      rw [hq, hpathm] at hpathn
      rw [Option.some.inj hpathn]
    · obtain ⟨k, hpathk, hinternal, -⟩ := exists_internal_of_descend_append (hq ▸ hpathm) hnil
      obtain rfl := Option.some.inj (hpathn.symm.trans hpathk)
      have hleaf := (harena.leaf_iff n (hn.trans_le hlen)).2 hn
      exact absurd (hleaf.symm.trans hinternal) Bool.noConfusion

/-- Settles O21: on the valid tree of FREQ the assigned codes are the code map of FREQ, in which no codeword begins another's. -/
theorem codewordsArePrefixFree : Obligations.CodewordsArePrefixFree := by
  intro s hvalid hnode hnsym
  have hcode : (casn s).code = codeMapOf s.freq := by
    rw [casn_of_valid hvalid, codeMapOf, ← hnode, ← hnsym]
    rfl
  refine ⟨casn s, exec_eq _ _, (casn_validFlags s).1.2 hvalid, fun a b hab ha hb hprefix => hab ?_⟩
  rw [hcode] at ha hb hprefix
  exact eq_of_codeword_prefix (tableGet_codeMapOf_ne_nil_iff.1 ha) (tableGet_codeMapOf_ne_nil_iff.1 hb) hprefix

/-! ## Unique decodability (R226) -/

/-- Texts over the present symbols with the same codewords in a row are the same text: the two first codewords begin one bit
string, so one of them begins the other. -/
theorem codewords_injective {F : Vector Word 256} {T T' : List Byte} (hT : ∀ b ∈ T, tableGet F b ≠ 0#32)
    (hT' : ∀ b ∈ T', tableGet F b ≠ 0#32) (h : codewords (codeMapOf F) T = codewords (codeMapOf F) T') : T = T' := by
  induction T generalizing T' with
  | nil =>
    cases T' with
    | nil => rfl
    | cons y T' =>
      rw [codewords_nil, codewords_cons] at h
      exact absurd (List.append_eq_nil_iff.1 h.symm).1 (tableGet_codeMapOf_ne_nil_iff.2 (hT' y List.mem_cons_self))
  | cons x T ih =>
    obtain ⟨hx, hxs⟩ := List.forall_mem_cons.1 hT
    cases T' with
    | nil =>
      rw [codewords_nil, codewords_cons] at h
      exact absurd (List.append_eq_nil_iff.1 h).1 (tableGet_codeMapOf_ne_nil_iff.2 hx)
    | cons y T' =>
      obtain ⟨hy, hys⟩ := List.forall_mem_cons.1 hT'
      rw [codewords_cons, codewords_cons] at h
      obtain rfl : x = y := by
        rcases List.prefix_or_prefix_of_prefix ⟨_, h⟩ (List.prefix_append ..) with hxy | hyx
        · exact eq_of_codeword_prefix hx hy hxy
        · exact (eq_of_codeword_prefix hy hx hyx).symm
      rw [ih hxs hys (List.append_cancel_left h)]

/-- Settles O32: an encoding of a text over present symbols is the concatenation of its codewords, from which the text is
read off codeword by codeword. -/
theorem encodingIsUniquelyDecodable : Obligations.EncodingIsUniquelyDecodable := by
  intro F T T' hT hT' h
  have hencode : ∀ {A : List Byte}, (∀ b ∈ A, tableGet F b ≠ 0#32) →
      encodeBits (codeMapOf F) A = .ok (codewords (codeMapOf F) A) := fun hA =>
    encodeBits_eq_codewords fun b hb => tableGet_codeMapOf_ne_nil_iff.2 (hA b hb)
  rw [hencode hT, hencode hT'] at h
  exact codewords_injective hT hT' (Except.ok.inj h)

/-! ## Sums over a tree -/

section
variable {K total : Nat} {nodes : List Node} {e : QueueEntry} (h : MergeInv K total nodes [e])
include h

theorem MergeInv.children_eq {n : Nat} (hn : n < nodes.length) (hK : K ≤ n) :
    (nodeAt nodes n).children = [childFor nodes n false, childFor nodes n true] :=
  children_of_internal (h.leaf_eq_false hn hK)

/-- Every node but the root is the child of one internal node, so a sum over all nodes is one over the root and the children
of the internal nodes. -/
theorem MergeInv.sum_nodes (g : Nat → Nat) : ∑ n ∈ Finset.range nodes.length, g n =
    g e.idx + ∑ n ∈ Finset.Ico K nodes.length, (g (childFor nodes n false) + g (childFor nodes n true)) := by
  have hnodes : nodes.flatMap Node.children = (List.range nodes.length).flatMap (fun n => (nodeAt nodes n).children) := by
    have hlist : (List.range nodes.length).map (nodeAt nodes) = nodes := map_range_eq_self fun i hi => nodeAt_of_lt hi
    conv_lhs => rw [← hlist, List.flatMap_map]
  have hleaves : ∀ n ∈ Finset.range K, ((nodeAt nodes n).children.map g).sum = 0 := fun n hn => by
    have hlt := Finset.mem_range.1 hn
    rw [children_of_leaf ((h.arena.leaf_iff n (hlt.trans_le h.leaves_le)).2 hlt)]
    rfl
  have hinternal : ∀ n ∈ Finset.Ico K nodes.length, ((nodeAt nodes n).children.map g).sum =
      g (childFor nodes n false) + g (childFor nodes n true) := fun n hn => by
    obtain ⟨hK, hlt⟩ := Finset.mem_Ico.1 hn
    simp [h.children_eq hlt hK]
  calc ∑ n ∈ Finset.range nodes.length, g n
      = (([e].map (·.idx) ++ nodes.flatMap Node.children).map g).sum := ((h.indices.map g).sum_eq).symm
    _ = g e.idx + ((List.range nodes.length).map fun n => ((nodeAt nodes n).children.map g).sum).sum := by
        rw [hnodes, List.map_append, List.sum_append, List.map_flatMap, List.flatMap_def, List.sum_flatten, List.map_map]
        simp [Function.comp_def]
    _ = g e.idx + ∑ n ∈ Finset.range nodes.length, ((nodeAt nodes n).children.map g).sum := rfl
    _ = _ := by
        rw [← Finset.sum_range_add_sum_Ico _ h.leaves_le, Finset.sum_eq_zero hleaves, Nat.zero_add,
          Finset.sum_congr rfl hinternal]

/-- A quantity that the two children of an internal node share out between them, with a surplus `f`: over the leaves it adds
up to that of the root and every surplus. -/
theorem MergeInv.sum_leaves {g f : Nat → Nat} (hstep : ∀ n, K ≤ n → n < nodes.length →
    g (childFor nodes n false) + g (childFor nodes n true) = g n + f n) :
    ∑ n ∈ Finset.range K, g n = g e.idx + ∑ n ∈ Finset.Ico K nodes.length, f n := by
  have hsum := h.sum_nodes g
  rw [← Finset.sum_range_add_sum_Ico _ h.leaves_le, Finset.sum_congr rfl fun n hn =>
    hstep n (Finset.mem_Ico.1 hn).1 (Finset.mem_Ico.1 hn).2, Finset.sum_add_distrib] at hsum
  omega

/-! ## The depth of a node (R151) -/

/-- Every node has a path from the root. -/
theorem MergeInv.exists_path {n : Nat} (hn : n < nodes.length) : ∃ p, descend nodes e.idx p = some n := by
  have hidx := h.idx_eq
  have hlen := h.length_eq
  induction hd : nodes.length - n using Nat.strong_induction_on generalizing n with
  | _ d ih =>
    rcases Nat.lt_or_ge n (2 * K - 2) with hlt | hge
    · obtain ⟨m, hm, hchild⟩ := h.exists_parent hlt
      have hbelow := h.arena.children_lt m hm n hchild
      obtain ⟨p, hp⟩ := ih (nodes.length - m) (by omega) hm rfl
      cases hleaf : (nodeAt nodes m).leaf with
      | true => simp [children_of_leaf hleaf] at hchild
      | false =>
        rcases (mem_children_iff hleaf).1 hchild with rfl | rfl
        · exact ⟨_, descend_concat hp hleaf false⟩
        · exact ⟨_, descend_concat hp hleaf true⟩
    · obtain rfl : e.idx = n := by omega
      exact ⟨[], rfl⟩

theorem MergeInv.lt_length_of_path {n : Nat} {p : BitString} (hp : descend nodes e.idx p = some n) : n < nodes.length := by
  have hidx := h.idx_lt List.mem_cons_self
  by_cases hnil : p = []
  · subst hnil
    exact Option.some.inj hp ▸ hidx
  · exact (h.arena.descend_lt hidx hp hnil).trans hidx

/-- A path back to the root is empty. -/
theorem MergeInv.path_eq_nil {p : BitString} (hp : descend nodes e.idx p = some e.idx) : p = [] := by
  by_contra hnil
  exact Nat.lt_irrefl _ (h.arena.descend_lt (h.idx_lt List.mem_cons_self) hp hnil)

/-- An internal node and a bit are given by the child they lead to. -/
theorem MergeInv.childFor_injective {n m : Nat} {b c : Bool} (hn : n < nodes.length) (hm : m < nodes.length)
    (hleafn : (nodeAt nodes n).leaf = false) (hleafm : (nodeAt nodes m).leaf = false)
    (heq : childFor nodes n b = childFor nodes m c) : n = m ∧ b = c := by
  have hchild : ∀ {k : Nat} (d : Bool), (nodeAt nodes k).leaf = false → childFor nodes k d ∈ (nodeAt nodes k).children :=
    fun d hk => (mem_children_iff hk).2 (by cases d <;> simp [childFor])
  obtain rfl := h.parent_unique hn hm (hchild b hleafn) (heq ▸ hchild c hleafm)
  have hK : K ≤ n := by
    by_contra hlt
    exact absurd (hleafn.symm.trans ((h.arena.leaf_iff n hn).2 (Nat.lt_of_not_le hlt))) Bool.noConfusion
  have hne := h.left_ne_right hn hK
  rw [ne_eq, ← BitVec.toNat_inj] at hne
  refine ⟨rfl, ?_⟩
  match b, c with
  | false, false | true, true => rfl
  | false, true => exact absurd heq hne
  | true, false => exact absurd heq.symm hne

/-- There is one path to a node. -/
theorem MergeInv.path_unique {n : Nat} {p q : BitString} (hp : descend nodes e.idx p = some n)
    (hq : descend nodes e.idx q = some n) : p = q := by
  induction p using List.reverseRecOn generalizing q n with
  | nil =>
    obtain rfl := Option.some.inj hp
    exact (h.path_eq_nil hq).symm
  | append_singleton p b ih =>
    obtain rfl | ⟨q, c, rfl⟩ := List.eq_nil_or_concat' q
    · obtain rfl := Option.some.inj hq
      exact h.path_eq_nil hp
    · obtain ⟨k, hpk, hk, hb⟩ := exists_internal_of_descend_append hp (List.cons_ne_nil b [])
      obtain ⟨m, hqm, hm, hc⟩ := exists_internal_of_descend_append hq (List.cons_ne_nil c [])
      have hkb : childFor nodes k b = n := Option.some.inj (descend_cons_eq_some_iff.1 hb).2
      have hmc : childFor nodes m c = n := Option.some.inj (descend_cons_eq_some_iff.1 hc).2
      obtain ⟨rfl, rfl⟩ := h.childFor_injective (h.lt_length_of_path hpk) (h.lt_length_of_path hqm) hk hm
        (hkb.trans hmc.symm)
      rw [ih hpk hqm]

/-- The depth of a node is the length of its path: 0 at the root and one more for each child. -/
theorem MergeInv.exists_depth : ∃ depth : Nat → Nat,
    (∀ p n, descend nodes e.idx p = some n → p.length = depth n) ∧
    ∀ n, K ≤ n → n < nodes.length → ∀ b, depth (childFor nodes n b) = depth n + 1 := by
  choose! path hpath using fun n (hn : n < nodes.length) => h.exists_path hn
  have hdepth : ∀ p n, descend nodes e.idx p = some n → p.length = (path n).length := fun p n hp => by
    rw [h.path_unique hp (hpath n (h.lt_length_of_path hp))]
  refine ⟨fun n => (path n).length, hdepth, fun n hK hn b => ?_⟩
  have hpathb := descend_concat (hpath n hn) (h.leaf_eq_false hn hK) b
  exact (hdepth _ _ hpathb).symm.trans (by simp)

end

/-! ## Sums over the code map of a table -/

/-- The present symbols are those of the leaves, in their order (R131). -/
theorem presentSymbols_eq_map_leaves (F : Vector Word 256) :
    presentSymbols F = (List.range (freqSymbols F)).map fun n => (nodeAt (buildTree F).1 n).sym := by
  apply List.ext_getElem
  · simp [freqSymbols_eq_length]
  · intro n h₁ h₂
    have hn : n < freqSymbols F := by simpa using h₂
    have hn' : n < (leaves F).length := by rwa [length_leaves]
    rw [List.getElem_map, List.getElem_range, nodeAt_buildTree_of_lt hn, nodeAt_of_lt hn']
    simp [leaves_eq_map]

/-- A sum over all symbols to which an absent one adds nothing is a sum over the leaves. -/
theorem sum_allBytes_eq_sum_leaves {F : Vector Word 256} {g : Byte → Nat} (hg : ∀ b, tableGet F b = 0#32 → g b = 0) :
    (allBytes.map g).sum = ∑ n ∈ Finset.range (freqSymbols F), g (nodeAt (buildTree F).1 n).sym := by
  have hpresent : (allBytes.map g).sum = ((presentSymbols F).map g).sum := by
    rw [presentSymbols]
    induction allBytes with
    | nil => rfl
    | cons b bs ih =>
      by_cases hb : tableGet F b = 0#32
      · simpa [hb, hg b hb] using ih
      · simpa [hb] using ih
  rw [hpresent, presentSymbols_eq_map_leaves, List.map_map]
  rfl

/-- A leaf's weight is its symbol's entry (R131). -/
theorem weight_leaf {F : Vector Word 256} {n : Nat} (hn : n < freqSymbols F) :
    (nodeAt (buildTree F).1 n).weight.toNat = (tableGet F (nodeAt (buildTree F).1 n).sym).toNat := by
  obtain ⟨b, -, hleaf⟩ := mem_leaves.1 (nodeAt_mem (nodes := leaves F) (length_leaves F ▸ hn))
  rw [nodeAt_buildTree_of_lt hn, ← hleaf, leafNode_weight_toNat, leafNode_sym]

/-- The finished tree of at least two symbols, with the depth of each node: that of a leaf is the length of its symbol's
codeword, and none is more than the number of internal nodes. -/
theorem exists_depth_buildTree {F : Vector Word 256} (hF : 2 ≤ freqSymbols F) :
    ∃ (e : QueueEntry) (depth : Nat → Nat), MergeInv (freqSymbols F) (freqTotal F) (buildTree F).1 [e] ∧ depth e.idx = 0 ∧
      (∀ n, freqSymbols F ≤ n → n < (buildTree F).1.length → ∀ b,
        depth (childFor (buildTree F).1 n b) = depth n + 1 ∧ depth n + 1 ≤ freqSymbols F - 1) ∧
      ∀ n, n < freqSymbols F → depth n = (tableGet (codeMapOf F) (nodeAt (buildTree F).1 n).sym).length := by
  obtain ⟨e, h⟩ := mergeInv_buildTree (F := F) (by omega)
  obtain ⟨depth, hdepth, hchild⟩ := h.exists_depth
  have hidx := h.idx_eq
  refine ⟨e, depth, h, (hdepth [] _ rfl).symm, fun n hK hn b => ⟨hchild n hK hn b, ?_⟩, fun n hn => ?_⟩
  · obtain ⟨p, hp⟩ := h.exists_path hn
    have hpath := descend_concat hp (h.leaf_eq_false hn hK) b
    have hlen := h.arena.length_path_le (h.idx_lt List.mem_cons_self) hpath
    rw [List.length_append, List.length_singleton, hdepth p n hp] at hlen
    omega
  · have hpath := (codeMapOf_eq_paths hF).1 n hn
    rw [root_eq (by omega), ← hidx] at hpath
    exact (hdepth _ n hpath).symm

/-! ## Completeness (R224) -/

/-- What a codeword of length `n` takes up of all bit strings of 255 bits; an unset entry takes up nothing. -/
def kraftShare (n : Nat) : Nat := if n = 0 then 0 else 2 ^ (255 - n)

/-- Settles O23: the two children of a node at depth `d` take up `2^(255-d)` together, so the leaves take up what the root
does. -/
theorem codeIsComplete : Obligations.CodeIsComplete := by
  intro F hF
  obtain ⟨e, depth, h, hroot, hchild, hleaf⟩ := exists_depth_buildTree hF
  have hle := freqSymbols_le F
  have hkraft := h.sum_leaves (g := fun n => 2 ^ (255 - depth n)) (f := fun _ => 0) fun n hK hn => by
    obtain ⟨hfalse, hbound⟩ := hchild n hK hn false
    obtain ⟨htrue, -⟩ := hchild n hK hn true
    rw [hfalse, htrue, show 255 - depth n = 255 - (depth n + 1) + 1 by omega, pow_succ]
    omega
  have hsum := sum_allBytes_eq_sum_leaves (g := fun b => kraftShare (tableGet (codeMapOf F) b).length) fun b hb => by
    rw [not_not.1 fun hset => tableGet_codeMapOf_ne_nil_iff.1 hset hb]
    rfl
  rw [allBytes, List.map_map] at hsum
  rw [hroot, Finset.sum_const_zero] at hkraft
  refine hsum.trans ((Finset.sum_congr rfl fun n hn => ?_).trans hkraft)
  have hn := Finset.mem_range.1 hn
  have hset := List.length_pos_iff.2 (tableGet_codeMapOf_ne_nil_iff.2 (present_iff_exists_leaf.2 ⟨n, hn, rfl⟩))
  rw [kraftShare, if_neg hset.ne', hleaf n hn]

/-! ## The length of an encoding (R223) -/

section
variable {K total : Nat} {nodes : List Node} {e : QueueEntry} (h : MergeInv K total nodes [e])
include h

/-- The nodes that are no leaves are those from index `K` on (R44). -/
theorem MergeInv.sum_filter_internal (g : Node → Nat) :
    ((nodes.filter fun x => !x.leaf).map g).sum = ∑ n ∈ Finset.Ico K nodes.length, g (nodeAt nodes n) := by
  have hlist : (List.range nodes.length).map (nodeAt nodes) = nodes := map_range_eq_self fun i hi => nodeAt_of_lt hi
  have hsplit := List.range_add (n := K) (m := nodes.length - K)
  rw [Nat.add_sub_cancel' h.leaves_le] at hsplit
  have hleaves : ((List.range K).map (nodeAt nodes)).filter (fun x => !x.leaf) = [] := by
    simp only [List.filter_eq_nil_iff, List.forall_mem_map, List.mem_range]
    intro n hn
    simp [(h.arena.leaf_iff n (hn.trans_le h.leaves_le)).2 hn]
  have hinternal : (((List.range (nodes.length - K)).map (K + ·)).map (nodeAt nodes)).filter (fun x => !x.leaf) =
      ((List.range (nodes.length - K)).map (K + ·)).map (nodeAt nodes) := by
    simp only [List.filter_eq_self, List.forall_mem_map, List.mem_range]
    intro n hn
    simp [h.leaf_eq_false (n := K + n) (by omega) (Nat.le_add_right K n)]
  conv_lhs => rw [← hlist, hsplit, List.map_append, List.filter_append, hleaves, hinternal, List.nil_append]
  rw [Finset.sum_Ico_eq_sum_range, List.map_map, List.map_map]
  rfl

/-- A leaf's weight is counted once in every internal node above it, that is, as often as the leaf is deep. -/
theorem MergeInv.sum_weight_mul_depth {depth : Nat → Nat} (hroot : depth e.idx = 0)
    (hchild : ∀ n, K ≤ n → n < nodes.length → ∀ b, depth (childFor nodes n b) = depth n + 1) :
    ∑ n ∈ Finset.range K, (nodeAt nodes n).weight.toNat * depth n =
      ((nodes.filter fun x => !x.leaf).map fun x => x.weight.toNat).sum := by
  have hsum := h.sum_leaves (g := fun n => (nodeAt nodes n).weight.toNat * depth n)
    (f := fun n => (nodeAt nodes n).weight.toNat) fun n hK hn => by
      have hweight := h.weight_internal hn hK
      rw [hchild n hK hn false, hchild n hK hn true, childFor, childFor, if_pos rfl, if_neg Bool.false_ne_true, hweight]
      ring
  rw [h.sum_filter_internal, hsum, hroot, Nat.mul_zero, Nat.zero_add]

end

theorem length_codewords (code : Vector BitString 256) (T : List Byte) :
    (codewords code T).length = (T.map fun b => (tableGet code b).length).sum := List.length_flatMap

theorem allBytes_nodup : allBytes.Nodup := allBytes_ascending.imp fun h heq => Nat.ne_of_lt h (congrArg _ heq)

/-- A sum over the bytes of a text is a sum over the symbols, each as often as it occurs. -/
theorem sum_map_eq_sum_count (T : List Byte) (g : Byte → Nat) :
    (T.map g).sum = (allBytes.map fun b => T.count b * g b).sum := by
  have hsubset : T.toFinset ⊆ allBytes.toFinset := fun b _ => List.mem_toFinset.2 (mem_allBytes b)
  rw [Finset.sum_list_map_count, ← List.sum_toFinset _ allBytes_nodup]
  refine Finset.sum_subset hsubset fun b _ hb => ?_
  rw [List.count_eq_zero_of_not_mem (mt List.mem_toFinset.2 hb), zero_smul]

/-- The table `FCNT` makes of a text (R121). -/
theorem toNat_tableGet_counts {T : List Byte} (hT : T.length ≤ Config.textCap) (b : Byte) :
    (tableGet (tableMap (BitVec.ofNat 32) (countFreq T)) b).toNat = T.count b := by
  have hle : T.count b ≤ T.length := List.count_le_length
  have hcap : T.length ≤ 65536 := hT
  rw [tableGet_map, tableGet_countFreq, BitVec.toNat_ofNat, Nat.mod_eq_of_lt (by omega)]

/-- The symbols of a text are the present ones of its table. -/
theorem tableGet_counts_ne_zero_iff {T : List Byte} (hT : T.length ≤ Config.textCap) {b : Byte} :
    tableGet (tableMap (BitVec.ofNat 32) (countFreq T)) b ≠ 0#32 ↔ b ∈ T := by
  rw [ne_eq, ← BitVec.toNat_inj, toNat_tableGet_counts hT, BitVec.toNat_ofNat, Nat.zero_mod, ← ne_eq,
    ← Nat.pos_iff_ne_zero, List.count_pos_iff]

/-- Settles O28: the counts of the text are the entries of its table, whose products with the codeword lengths are those of
the leaves with their depths. -/
theorem encodedLengthIsTheInternalWeight : Obligations.EncodedLengthIsTheInternalWeight := by
  intro T hT F n
  have hcounts : n = (allBytes.map fun b => (tableGet F b).toNat * (tableGet (codeMapOf F) b).length).sum := by
    refine (length_codewords _ T).trans ((sum_map_eq_sum_count T _).trans ?_)
    simp only [F, toNat_tableGet_counts hT]
  refine ⟨?_, fun hF => ?_, fun hF => ?_⟩
  · rw [hcounts, allBytes, List.map_map]
    rfl
  · obtain ⟨e, depth, h, hroot, hchild, hleaf⟩ := exists_depth_buildTree hF
    rw [hcounts, sum_allBytes_eq_sum_leaves fun b hb => by rw [hb]; exact Nat.zero_mul _,
      ← h.sum_weight_mul_depth hroot fun n hK hn b => (hchild n hK hn b).1]
    refine Finset.sum_congr rfl fun n hn => ?_
    have hn := Finset.mem_range.1 hn
    rw [weight_leaf hn, hleaf n hn]
  · have hT' : ∀ x ∈ T, tableGet F x ≠ 0#32 := fun x => (tableGet_counts_ne_zero_iff hT).2
    refine (congrArg List.length (codewords_of_single hF hT')).trans ?_
    rw [List.length_replicate]

end Sys2Proof.Machine

/-! SUPPORT. Whole command sequences of 50_properties.md: ENCODE from every state whose encoding fits BITS, DECODE of an encoded
text, and the round trips made of the two (R215, R219 to R221). -/

namespace Sys2Proof.Machine

/-! ## Commands one after another -/

theorem runCommands_cons {good : State → Bool} {i : Instr} {s t : State} (hstep : afterCommand i s = t)
    (hgood : good t = true) (is : List Instr) : runCommands good (i :: is) s = runCommands good is t := by
  simp only [runCommands, exec_eq, hstep, if_pos hgood]

theorem runCommands_append (good : State → Bool) (is js : List Instr) (s : State) :
    runCommands good (is ++ js) s = (runCommands good is s).bind (runCommands good js) := by
  induction is generalizing s with
  | nil => rfl
  | cons i is ih =>
    simp only [List.cons_append, runCommands, exec_eq]
    split
    · exact ih _
    · rfl

theorem succeeded_of_err {t : State} (h : t.err = 0#8) : succeeded t = true := beq_iff_eq.2 h

theorem succeededEmpty_of_err {t : State} (h : t.err = 0#8) (hempty : t.empty = true) : succeededEmpty t = true := by
  rw [succeededEmpty, h, hempty]
  rfl

/-! ## BENC of a text that fits (R165) -/

@[simp] theorem Memory.putBits_nil (free : Nat → Byte) (m : Memory) : m.putBits free [] = m := rfl

@[simp] theorem padding_zero : padding 0 = [] := rfl

theorem textOperand_eq_nil_iff {s : State} : s.textOperand = [] ↔ s.textLen = 0#32 := by
  rw [← List.length_eq_zero_iff, length_textOperand, ← BitVec.toNat_inj]
  rfl

/-- `BENC` with a code map, a codeword for every byte and room in BITS; an empty text needs no case of its own (R165, R220). -/
theorem benc_of_fits {s : State} {out : BitString} (hvalid : s.codeValid = true)
    (hset : ∀ b ∈ s.textOperand, tableGet s.code b ≠ []) (hout : codewords s.code s.textOperand = out)
    (hfits : out.length ≤ Config.bitCap) :
    benc s = { s with bits := s.bits.putBits (Config.unwrittenBits s.resets) (out ++ padding out.length)
                      bitLen := BitVec.ofNat 32 out.length }.succeed (emptyText s) := by
  subst hout
  by_cases htext : s.textLen = 0#32
  · rw [benc_of_empty htext, textOperand_eq_nil_iff.2 htext, emptyText_iff.2 htext]
    simp
  · have hloop : encodeLoop s.code 0 0 s.textOperand = (codewords s.code s.textOperand, none) := by
      simpa using encodeLoop_append [] 0 hset ((Nat.zero_add _).trans_le hfits)
    rw [benc_of_loop_done htext hvalid hloop, Bool.eq_false_iff.2 (mt emptyText_iff.1 htext)]

/-! ## ENCODE (R203) -/

/-- The symbols of the text are the present ones (R121). -/
theorem tableGet_fcnt_eq_zero_iff {s : State} {b : Byte} : tableGet (fcnt s).freq b = 0#32 ↔ b ∉ s.textOperand := by
  rw [← BitVec.toNat_inj, toNat_tableGet_fcnt, BitVec.toNat_ofNat, Nat.zero_mod, List.count_eq_zero]

/-- The table of a text has a symbol exactly when the text is not empty (R29). -/
theorem freqSymbols_fcnt_eq_zero_iff {s : State} : freqSymbols (fcnt s).freq = 0 ↔ s.textLen = 0#32 := by
  simp only [freqSymbols_eq_zero_iff, ← textOperand_eq_nil_iff, tableGet_fcnt_eq_zero_iff, List.eq_nil_iff_forall_not_mem]

theorem emptyTree_fcnt (s : State) : emptyTree (buildTree (fcnt s).freq).2 = emptyText s := by
  rw [buildTree_snd, Bool.eq_iff_iff, emptyText_iff, ← freqSymbols_fcnt_eq_zero_iff, emptyTree, beq_iff_eq]

/-- The bits ENCODE writes: the text under its own code. -/
def encodedBits (s : State) : BitString := codewords (codeMapOf (fcnt s).freq) s.textOperand

/-- The state after the FCNT and TBLD of ENCODE. -/
def treeState (s : State) : State :=
  { fcnt s with
    node := (buildTree (fcnt s).freq).1, nsym := BitVec.ofNat 9 (buildTree (fcnt s).freq).2
    treeValid := true }.succeed (emptyText s)

/-- The state after the CASN of ENCODE. -/
def codeState (s : State) : State :=
  { treeState s with code := codeMapOf (fcnt s).freq, codeValid := true, treeValid := false }.succeed (emptyText s)

/-- The state after ENCODE. -/
def encodedState (s : State) : State :=
  { codeState s with
    bits := s.bits.putBits (Config.unwrittenBits s.resets) (encodedBits s ++ padding (encodedBits s).length)
    bitLen := BitVec.ofNat 32 (encodedBits s).length }.succeed (emptyText s)

section
variable (s : State)

@[simp] theorem encodedState_freq : (encodedState s).freq = (fcnt s).freq := rfl
@[simp] theorem encodedState_code : (encodedState s).code = codeMapOf (fcnt s).freq := rfl
@[simp] theorem encodedState_bitLen : (encodedState s).bitLen = BitVec.ofNat 32 (encodedBits s).length := rfl
@[simp] theorem encodedState_bits : (encodedState s).bits = s.bits.putBits (Config.unwrittenBits s.resets)
    (encodedBits s ++ padding (encodedBits s).length) := rfl
@[simp] theorem encodedState_nsym : (encodedState s).nsym = BitVec.ofNat 9 (freqSymbols (fcnt s).freq) :=
  congrArg (BitVec.ofNat 9) (buildTree_snd _)

end

theorem tbld_fcnt {s : State} (hlen : s.textLen.toNat ≤ Config.textCap) : tbld false (fcnt s) = treeState s := by
  rw [tbld_of_valid (legalTable_fcnt hlen) Bool.noConfusion, emptyTree_fcnt]
  rfl

theorem casn_treeState (s : State) : casn (treeState s) = codeState s := by
  have hK : (treeState s).nsym.toNat = (buildTree (fcnt s).freq).2 := toNat_ofNat_buildTree_snd _
  rw [casn_of_valid (s := treeState s) rfl, hK, emptyTree_fcnt]
  rfl

theorem benc_codeState {s : State} (hfits : (encodedBits s).length ≤ Config.bitCap) :
    benc (codeState s) = encodedState s :=
  benc_of_fits (s := codeState s) rfl (fun _ => tableGet_codeMapOf_fcnt_ne_nil (s := s)) rfl hfits

/-- Each command of ENCODE succeeds, with EMPTY set exactly for an empty text (R203). -/
theorem runCommands_encode {good : State → Bool} {s : State} (hlen : s.textLen.toNat ≤ Config.textCap)
    (hfits : (encodedBits s).length ≤ Config.bitCap)
    (hgood : ∀ t : State, t.err = 0#8 → t.empty = emptyText s → good t = true) :
    runCommands good encodeCommands s = some (encodedState s) := by
  rw [encodeCommands, runCommands_cons (t := fcnt s) rfl (hgood _ rfl rfl),
    runCommands_cons (i := .tbld false) (tbld_fcnt hlen) (hgood _ rfl rfl),
    runCommands_cons (i := .casn) (s := treeState s) (casn_treeState s) (hgood _ rfl rfl),
    runCommands_cons (i := .benc) (s := codeState s) (benc_codeState hfits) (hgood _ rfl rfl), runCommands]

/-- ENCODE leaves the encoding in BITS, zero bits up to the end of its last byte (R66, R69). -/
theorem bitAt_encodedState (s : State) {j : Nat} (hj : j < 8 * (((encodedBits s).length + 7) / 8)) :
    (encodedState s).bitAt j = (encodedBits s)[j]?.getD false := by
  refine (Memory.bitAt_putBits (Config.unwrittenBits s.resets) s.bits _ j).trans ?_
  rcases Nat.lt_or_ge j (encodedBits s).length with hlt | hge
  · rw [List.getElem?_append_left hlt, List.getElem?_eq_getElem hlt]
    rfl
  · rw [getElem?_append_padding hge hj, List.getElem?_eq_none hge]
    rfl

theorem bitsOperand_encodedState {s : State} (hfits : (encodedBits s).length ≤ Config.bitCap) :
    (encodedState s).bitsOperand = encodedBits s := by
  rw [State.bitsOperand, encodedState_bitLen, toNat_ofNat_length hfits]
  refine map_range_eq_self fun j hj => ?_
  rw [bitAt_encodedState s (by omega), List.getElem?_eq_getElem hj, Option.getD_some]

/-! ## DECODE (R204) -/

/-- The state after a BDEC that decodes the text `T` (R180). -/
def decodedState (s : State) (T : List Byte) : State :=
  { s with
    treeValid := false, textLen := BitVec.ofNat 32 T.length, node := (buildTree s.freq).1
    nsym := BitVec.ofNat 9 (freqSymbols s.freq)
    text := s.text.putBytes 0 T }.succeed (decide (freqSymbols s.freq = 0))

theorem textOperand_decodedState (s : State) {T : List Byte} (hlen : T.length ≤ Config.textCap) :
    (decodedState s T).textOperand = T := by
  have htextLen : (decodedState s T).textLen.toNat = T.length := toNat_ofNat_length (hlen.trans (by decide))
  rw [State.textOperand, htextLen]
  refine map_range_eq_self fun i hi => ?_
  refine (Memory.byteAt_putBytes_zero (Config.unwrittenText s.resets) s.text T i).trans ?_
  rw [List.getElem?_eq_getElem hi, Option.getD_some]

/-- DECODE and DECODE.L of the codewords of a text succeed, with EMPTY set exactly for a table without a symbol (R204). -/
theorem runCommands_decode {good : State → Bool} {s : State} {T : List Byte} (l : Bool) (hlegal : legalTable s.freq)
    (hT : ∀ b ∈ T, tableGet s.freq b ≠ 0#32) (hlen : T.length ≤ Config.textCap)
    (hbits : s.bitsOperand = codewords (codeMapOf s.freq) T) (hgood : good (decodedState s T) = true) :
    runCommands good (decodeCommands l) s = some (decodedState s T) := by
  have hdecode := decodeBits_codewords hT hlen l
  rw [← hbits] at hdecode
  exact runCommands_cons (i := .bdec l false) (bdec_of_decoded hlegal Bool.noConfusion hdecode) hgood []

/-! ## Round trips -/

/-- DECODE and DECODE.L after ENCODE give the text back (R215). -/
theorem runCommands_decode_encodedState {s : State} (hlen : s.textLen.toNat ≤ Config.textCap)
    (hfits : (encodedBits s).length ≤ Config.bitCap) (l : Bool) :
    ∃ t, runCommands succeeded (decodeCommands l) (encodedState s) = some t ∧ t.textLen = s.textLen ∧
      t.textOperand = s.textOperand := by
  have hlen' : s.textOperand.length ≤ Config.textCap := (length_textOperand s).trans_le hlen
  have hpresent : ∀ b ∈ s.textOperand, tableGet (encodedState s).freq b ≠ 0#32 := fun b hb =>
    tableGet_codeMapOf_ne_nil_iff.1 (tableGet_codeMapOf_fcnt_ne_nil hb)
  refine ⟨_, runCommands_decode l (legalTable_fcnt hlen) hpresent hlen' (bitsOperand_encodedState hfits)
    (succeeded_of_err rfl), ?_, textOperand_decodedState _ hlen'⟩
  refine (congrArg (BitVec.ofNat 32) (length_textOperand s)).trans ?_
  rw [BitVec.ofNat_toNat, BitVec.setWidth_eq]

/-- Settles O39: DECODE runs on the state ENCODE leaves. -/
theorem encodeThenDecodeRoundTrips : Obligations.EncodeThenDecodeRoundTrips := by
  intro s l hlen hfits
  rw [runCommands_append, runCommands_encode hlen hfits fun t herr _ => succeeded_of_err herr, Option.bind_some]
  exact runCommands_decode_encodedState hlen hfits l

/-! ## A text of one repeated symbol (R219) -/

section
variable {s : State} {u : Byte} {n : Nat} (hn : 1 ≤ n) (htext : s.textOperand = List.replicate n u)
include hn htext

theorem tableGet_fcnt_of_replicate {b : Byte} : tableGet (fcnt s).freq b ≠ 0#32 ↔ b = u := by
  rw [ne_eq, tableGet_fcnt_eq_zero_iff, not_not, htext, List.mem_replicate, and_iff_right (Nat.ne_of_gt hn)]

theorem freqSymbols_fcnt_of_replicate : freqSymbols (fcnt s).freq = 1 := by
  have hnodup : (presentSymbols (fcnt s).freq).Nodup := allBytes_nodup.filter _
  have hperm : (presentSymbols (fcnt s).freq).Perm [u] :=
    (List.perm_ext_iff_of_nodup hnodup (List.nodup_singleton u)).2 fun b => by
      rw [mem_presentSymbols, tableGet_fcnt_of_replicate hn htext, List.mem_singleton]
  rw [freqSymbols_eq_length, hperm.length_eq, List.length_singleton]

theorem encodedBits_of_replicate : encodedBits s = List.replicate n false := by
  have hpresent : ∀ b ∈ s.textOperand, tableGet (fcnt s).freq b ≠ 0#32 := fun b hb =>
    mt tableGet_fcnt_eq_zero_iff.1 (not_not.2 hb)
  rw [encodedBits, codewords_of_single (freqSymbols_fcnt_of_replicate hn htext) hpresent, htext, List.length_replicate]

end

/-- Settles O40: the tree has one leaf, so every byte of the text is one zero bit. -/
theorem repeatedSymbolRoundTrips : Obligations.RepeatedSymbolRoundTrips := by
  intro s u n hn hcap htext
  have hlen : s.textLen.toNat = n := by rw [← length_textOperand, htext, List.length_replicate]
  have hlen' : s.textLen.toNat ≤ Config.textCap := hlen.trans_le hcap
  have hK := freqSymbols_fcnt_of_replicate hn htext
  have hpresent : ∀ b, tableGet (fcnt s).freq b ≠ 0#32 ↔ b = u := fun b => tableGet_fcnt_of_replicate hn htext
  have hbits := encodedBits_of_replicate hn htext
  have hfits : (encodedBits s).length ≤ Config.bitCap := by
    rw [hbits, List.length_replicate]
    exact hcap.trans (by decide)
  refine ⟨encodedState s, runCommands_encode hlen' hfits fun t herr _ => succeeded_of_err herr, ?_, ?_, fun b hb => ?_, ?_,
    fun j hj => ?_, fun l => ?_⟩
  · rw [encodedState_nsym, hK]
  · exact tableGet_codeMapOf_of_single hK ((hpresent u).2 rfl)
  · exact not_not.1 fun hset => hb ((hpresent b).1 (tableGet_codeMapOf_ne_nil_iff.1 hset))
  · rw [encodedState_bitLen, hbits, List.length_replicate]
  · rw [bitAt_encodedState s (by rwa [hbits, List.length_replicate]), hbits, List.getElem?_replicate]
    split <;> rfl
  · obtain ⟨t, hrun, htextLen, htextOperand⟩ := runCommands_decode_encodedState hlen' hfits l
    refine ⟨t, hrun, ?_, htextOperand.trans htext⟩
    rw [htextLen, ← hlen, BitVec.ofNat_toNat, BitVec.setWidth_eq]

/-! ## Empty input (R220) -/

theorem codeMapOf_of_no_symbol {F : Vector Word 256} (hF : ∀ b, tableGet F b = 0#32) (b : Byte) :
    tableGet (codeMapOf F) b = [] :=
  not_not.1 fun hset => tableGet_codeMapOf_ne_nil_iff.1 hset (hF b)

/-- Settles O41: an empty text has no symbol and no bit, and so has an empty bit string. -/
theorem emptyInputSucceedsThroughout : Obligations.EmptyInputSucceedsThroughout := by
  refine ⟨fun s htext => ?_, fun s l hzero hbits => ?_⟩
  · have hnil := textOperand_eq_nil_iff.2 htext
    have hbits : encodedBits s = [] := by rw [encodedBits, hnil, codewords_nil]
    have hF := freqSymbols_eq_zero_iff.1 (freqSymbols_fcnt_eq_zero_iff.2 htext)
    refine ⟨encodedState s, runCommands_encode (by rw [htext]; exact Nat.zero_le _) (by rw [hbits]; exact Nat.zero_le _)
      fun t herr hempty => succeededEmpty_of_err herr (hempty.trans (emptyText_iff.2 htext)),
      fun b => ⟨hF b, codeMapOf_of_no_symbol hF b⟩, ?_, ?_, ?_⟩
    · rw [encodedState_nsym, freqSymbols_fcnt_eq_zero_iff.2 htext]
    · rw [encodedState_bitLen, hbits, List.length_nil]
    · rw [encodedState_bits, hbits, List.length_nil, padding_zero, List.append_nil, Memory.putBits_nil]
  · have hlegal : legalTable s.freq := fun b => by rw [hzero b]; rfl
    refine ⟨_, runCommands_decode l hlegal (T := []) (fun b hb => absurd hb List.not_mem_nil) (Nat.zero_le _)
      (bitsOperand_eq_nil_iff.2 hbits) (succeededEmpty_of_err rfl ?_), rfl, rfl⟩
    exact decide_eq_true (freqSymbols_eq_zero_iff.2 hzero)

/-! ## The concrete scenario (R221) -/

/-- The bytes of "abracadabra" (R221). -/
def abracadabra : List Byte :=
  [0x61#8, 0x62#8, 0x72#8, 0x61#8, 0x63#8, 0x61#8, 0x64#8, 0x61#8, 0x62#8, 0x72#8, 0x61#8]

/-- The table of "abracadabra". -/
def abracadabraTable : Vector Word 256 := tableMap (BitVec.ofNat 32) (countFreq abracadabra)

theorem abracadabraTable_entries :
    [0x61#8, 0x62#8, 0x72#8, 0x63#8, 0x64#8].map (tableGet abracadabraTable) = [5#32, 2#32, 2#32, 1#32, 1#32] := by
  decide +kernel

theorem abracadabra_codewords :
    [0x61#8, 0x62#8, 0x63#8, 0x64#8, 0x72#8].map (tableGet (codeMapOf abracadabraTable)) =
      [[false], [true, true, false], [true, false, false], [true, false, true], [true, true, true]] := by
  decide +kernel

theorem length_codewords_abracadabra : (codewords (codeMapOf abracadabraTable) abracadabra).length = 23 := by
  have hcodes := abracadabra_codewords
  simp only [List.map_cons, List.map_nil, List.cons.injEq, and_true] at hcodes
  obtain ⟨ha, hb, hc, hd, hr⟩ := hcodes
  simp [abracadabra, ha, hb, hc, hd, hr]

/-- Settles O42: the counts and the code are evaluated, the two sequences are those of every text that fits. -/
theorem abracadabraScenario : Obligations.AbracadabraScenario := by
  intro s htext
  replace htext : s.textOperand = abracadabra := htext
  have hF : (fcnt s).freq = abracadabraTable := by rw [fcnt_freq, htext, abracadabraTable]
  have hbits : (encodedBits s).length = 23 := by rw [encodedBits, hF, htext, length_codewords_abracadabra]
  have hlen : s.textLen.toNat ≤ Config.textCap := by
    rw [← length_textOperand, htext]
    decide
  have hfits : (encodedBits s).length ≤ Config.bitCap := by
    rw [hbits]
    decide
  obtain ⟨t, hrun, -, hback⟩ := runCommands_decode_encodedState hlen hfits false
  refine ⟨encodedState s, runCommands_encode hlen hfits fun t herr _ => succeeded_of_err herr, ?_⟩
  have hentries := abracadabraTable_entries
  have hcodes := abracadabra_codewords
  simp only [List.map_cons, List.map_nil, List.cons.injEq, and_true] at hentries hcodes
  obtain ⟨ha, hb, hr, hc, hd⟩ := hentries
  obtain ⟨ha', hb', hc', hd', hr'⟩ := hcodes
  rw [encodedState_freq, encodedState_code, encodedState_bitLen, hF, hbits, ha', hb', hc', hd', hr']
  exact ⟨ha, hb, hr, hc, hd, rfl, rfl, rfl, rfl, rfl, rfl, t, hrun, hback⟩

/-! ## The false variants (R228) -/

/-- The first ten symbols. -/
def tenSymbols : List Byte := (List.range 10).map (BitVec.ofNat 8)

/-- Ten symbols, each of twice the weight of the one before. -/
def doublingTable : Vector Word 256 :=
  setEntries (fun b => 1#32 <<< b.toNat) tenSymbols (Vector.replicate 256 0#32)

theorem legalTable_doublingTable : legalTable doublingTable := by
  have hentries : ∀ b ∈ tenSymbols, (1#32 <<< b.toNat).msb = false := by decide
  intro b
  rw [doublingTable, tableGet_setEntries]
  split
  · exact hentries b ‹_›
  · rw [tableGet_replicate]
    rfl

/-- Each merge takes the node of the merge before, so the first leaf is under all nine of them. -/
theorem doublingTable_codeLength : (tableGet (codeMapOf doublingTable) 0#8).length = 9 := by decide +kernel

/-- Refutes O24: with doubling weights the first of ten symbols has a codeword of 9 bits. -/
theorem not_codewordsNeverExceedEightBits : ¬ Obligations.CodewordsNeverExceedEightBits := by
  intro h
  have hle := h doublingTable 0#8 legalTable_doublingTable
  rw [doublingTable_codeLength] at hle
  exact absurd hle (by decide)

/-- The padding bit after the 23 bits of "abracadabra" is the codeword of one more "a". -/
theorem codewords_abracadabra_padded :
    codewords (codeMapOf abracadabraTable) abracadabra ++
        padding (codewords (codeMapOf abracadabraTable) abracadabra).length =
      codewords (codeMapOf abracadabraTable) (abracadabra ++ [0x61#8]) := by
  have ha : tableGet (codeMapOf abracadabraTable) 0x61#8 = [false] := (List.cons.inj abracadabra_codewords).1
  rw [codewords_append, length_codewords_abracadabra, codewords_cons, ha]
  rfl

/-- Refutes O38: with its padding bit counted, "abracadabra" decodes to "abracadabraa". -/
theorem not_roundedBitCountDecodesTheText : ¬ Obligations.RoundedBitCountDecodesTheText := by
  intro h
  have hcap : (abracadabra ++ [0x61#8]).length ≤ Config.textCap := by decide
  have hpresent : ∀ b ∈ abracadabra, tableGet abracadabraTable b ≠ 0#32 := fun b =>
    (tableGet_counts_ne_zero_iff (by decide)).2
  have hlonger : ∀ b ∈ abracadabra ++ [0x61#8], tableGet abracadabraTable b ≠ 0#32 :=
    List.forall_mem_append.2 ⟨hpresent, List.forall_mem_singleton.2 (hpresent _ List.mem_cons_self)⟩
  have hdecode := h abracadabraTable abracadabra hpresent (by decide)
  simp only [codewords_abracadabra_padded, decodeBits_codewords hlonger hcap] at hdecode
  have hne : abracadabra ++ [0x61#8] ≠ abracadabra := by decide
  exact hne (congrArg Prod.fst hdecode)

end Sys2Proof.Machine

/-! SUPPORT. The invariant of 10_state.md R47: it holds at reset, and every command, store and other host event keeps it (R227). -/

namespace Sys2Proof.Machine

/-! ## The buffers -/

/-- A buffer with nothing written (R261). -/
theorem bufferOk_nil (cap : Nat) : bufferOk [] cap := ⟨rfl, nofun⟩

theorem bufferOk_write {m : Memory} {cap a : Nat} (h : bufferOk m cap) (ha : a < cap) (v : Byte) :
    bufferOk (m.write a v) cap := by
  obtain ⟨hwf, hinside⟩ := h
  refine ⟨Memory.wf_write a v hwf, fun c hc => ?_⟩
  rcases Memory.mem_write hc with rfl | hc
  · exact ha
  · exact hinside c hc

theorem bufferOk_putBytes {m : Memory} {cap a : Nat} {bs : List Byte} (h : bufferOk m cap) (ha : a + bs.length ≤ cap) :
    bufferOk (m.putBytes a bs) cap := by
  induction bs generalizing m a with
  | nil => exact h
  | cons b bs ih =>
    rw [List.length_cons] at ha
    exact ih (bufferOk_write h (by omega) b) (by omega)

theorem bufferOk_putBits {m : Memory} {cap : Nat} (free : Nat → Byte) {bs : BitString} (h : bufferOk m cap)
    (hbs : bs.length ≤ 8 * cap) : bufferOk (m.putBits free bs) cap := by
  have hinside : ∀ k ∈ List.range ((bs.length + 7) / 8), k < cap := fun k hk => by
    rw [List.mem_range] at hk
    omega
  unfold Memory.putBits
  generalize List.range ((bs.length + 7) / 8) = ks at hinside ⊢
  induction ks generalizing m with
  | nil => exact h
  | cons k ks ih =>
    obtain ⟨hk, hks⟩ := List.forall_mem_cons.1 hinside
    exact ih (bufferOk_write h hk _) hks

/-! ## Bounds -/

theorem length_buildTree_le (F : Vector Word 256) : (buildTree F).1.length ≤ Config.nodeMax := by
  have hmax : Config.nodeMax = 511 := rfl
  have hle := freqSymbols_le F
  by_cases hF : freqSymbols F = 0
  · rw [buildTree_of_freqSymbols_eq_zero hF]
    exact Nat.zero_le _
  · obtain ⟨e, h⟩ := mergeInv_buildTree (Nat.one_le_iff_ne_zero.2 hF)
    rw [h.length_eq, hmax]
    omega

/-- The loop of `BENC` stops before it writes beyond BITS (R165). -/
theorem length_encodeLoop_le (code : Vector BitString 256) (i : Nat) {n : Nat} (T : List Byte) (hn : n ≤ Config.bitCap) :
    n + (encodeLoop code i n T).1.length ≤ Config.bitCap := by
  induction T generalizing i n with
  | nil => exact hn
  | cons b T ih =>
    by_cases hb : tableGet code b = []
    · rw [encodeLoop_cons_of_unset hb]
      exact hn
    · rcases Nat.lt_or_ge Config.bitCap (n + (tableGet code b).length) with hfull | hroom
      · rw [encodeLoop_cons_of_no_room hb i hfull]
        exact hn
      · rw [encodeLoop_cons_of_fits hb i hroom, List.length_append, ← Nat.add_assoc]
        exact ih (i + 1) hroom

theorem Failure.code_le (f : Failure) : f.code.toNat ≤ 6 := by cases f <;> decide

theorem reserved_zero (s : State) :
    s.statusWord.extractLsb' 3 5 = 0#5 ∧ s.statusWord.extractLsb' 16 16 = 0#16 := by
  obtain ⟨-, -, -, hlow, -, hhigh⟩ := statusWordFields s
  exact ⟨hlow, hhigh⟩

/-- The unset code map is that of the table without a symbol (R38). -/
theorem exists_table_of_unset : ∃ F, legalTable F ∧ Vector.replicate 256 [] = codeMapOf F := by
  refine ⟨Vector.replicate 256 0#32, fun b => by rw [tableGet_replicate]; rfl, table_ext fun b => ?_⟩
  rw [tableGet_replicate, codeMapOf_of_no_symbol (tableGet_replicate 0#32)]

/-! ## The reset state -/

/-- The invariant is about the block only. -/
theorem Inv.of_toBlock {s t : State} (h : Inv s) (hblock : t.toBlock = s.toBlock) : Inv t := by
  cases s
  cases t
  cases hblock
  exact { h with }

/-- Settles O58: every length is 0, no flag is set, nothing is listed, and no symbol has a codeword. -/
theorem resetStateMeetsTheInvariant : Obligations.ResetStateMeetsTheInvariant where
  textLen_le := Nat.zero_le _
  bitLen_le := Nat.zero_le _
  nsym_le := Nat.zero_le _
  reserved := reserved_zero _
  err_le := Nat.zero_le _
  tree := Bool.noConfusion
  codeMap := Bool.noConfusion
  codeShape := exists_table_of_unset
  arena := Nat.zero_le _
  textOk := bufferOk_nil _
  bitsOk := bufferOk_nil _

/-! ## Commands -/

section
variable {s : State} (h : Inv s)
include h

theorem Inv.succeed (e : Bool) : Inv (s.succeed e) :=
  { h with reserved := reserved_zero _, err_le := Nat.zero_le _ }

theorem Inv.raise (r : Raise) : Inv (s.raise r) :=
  { h with reserved := reserved_zero _, err_le := Failure.code_le r.failure }

/-- A command that discards the tree (R27). -/
theorem Inv.dropTree : Inv { s with treeValid := false } :=
  { h with reserved := reserved_zero _, tree := Bool.noConfusion }

theorem Inv.setTextLen {v : Word} (hv : v.toNat ≤ Config.textCap) : Inv { s with textLen := v } :=
  { h with textLen_le := hv, reserved := reserved_zero _ }

theorem Inv.setBitLen {v : Word} (hv : v.toNat ≤ Config.bitCap) : Inv { s with bitLen := v } :=
  { h with bitLen_le := hv, reserved := reserved_zero _ }

theorem Inv.setText {m : Memory} (hm : bufferOk m Config.textCap) : Inv { s with text := m } :=
  { h with textOk := hm, reserved := reserved_zero _ }

theorem Inv.setBits {m : Memory} (hm : bufferOk m (Config.bitCap / 8)) : Inv { s with bits := m } :=
  { h with bitsOk := hm, reserved := reserved_zero _ }

/-- A new table clears both valid flags (R36). -/
theorem Inv.setFreq (F : Vector Word 256) : Inv { s with freq := F }.invalidate :=
  { h with reserved := reserved_zero _, tree := Bool.noConfusion, codeMap := Bool.noConfusion }

/-- The tree of the current table, valid only if the table is legal (R42). -/
theorem Inv.setTree {valid : Bool} (hlegal : valid = true → legalTable s.freq) :
    Inv { s with node := (buildTree s.freq).1, nsym := BitVec.ofNat 9 (buildTree s.freq).2, treeValid := valid } where
  __ := h
  nsym_le := by
    rw [toNat_ofNat_buildTree_snd, buildTree_snd]
    exact freqSymbols_le _
  reserved := reserved_zero _
  tree hvalid := ⟨hlegal hvalid, rfl, toNat_ofNat_buildTree_snd _⟩
  arena := length_buildTree_le _

theorem Inv.tbld (c : Bool) : Inv (tbld c s) := by
  obtain ⟨r, -, heq⟩ | ⟨hvalid, heq⟩ := tbld_cases c s <;> rw [heq]
  · exact h.dropTree.raise r
  · exact (h.setTree fun _ => (validFreq_eq_none_iff.1 hvalid).1).succeed _

theorem Inv.casn : Inv (casn s) := by
  obtain ⟨hvalid, heq⟩ | ⟨-, heq⟩ := casn_cases s <;> rw [heq]
  · obtain ⟨hlegal, hnode, hnsym⟩ := h.tree hvalid
    have hcode : assignCodes s.node s.nsym.toNat = codeMapOf s.freq := by rw [hnode, hnsym, codeMapOf]
    have hassigned : Inv { s with code := assignCodes s.node s.nsym.toNat, codeValid := true, treeValid := false } :=
      { h with
        reserved := reserved_zero _, tree := Bool.noConfusion, codeMap := fun _ => ⟨hlegal, hcode⟩
        codeShape := ⟨s.freq, hlegal, hcode⟩ }
    exact hassigned.succeed _
  · have hdropped : Inv { s with codeValid := false } :=
      { h with reserved := reserved_zero _, codeMap := Bool.noConfusion }
    exact hdropped.raise _

theorem Inv.benc : Inv (benc s) := by
  have hcap : Config.bitCap = 524288 := rfl
  have hzero : (0#32).toNat ≤ Config.bitCap := Nat.zero_le _
  have hwritten : ∀ {out o}, encodeLoop s.code 0 0 s.textOperand = (out, o) → out.length ≤ Config.bitCap := fun hout => by
    simpa [hout] using length_encodeLoop_le s.code 0 s.textOperand (Nat.zero_le Config.bitCap)
  obtain ⟨-, heq⟩ | ⟨-, -, heq⟩ | ⟨-, -, out, f, hout, heq⟩ | ⟨-, -, out, hout, heq⟩ := benc_cases s <;> rw [heq]
  · exact (h.setBitLen hzero).succeed true
  · exact (h.setBitLen hzero).raise _
  · have hlen := hwritten hout
    exact ((h.setBits (bufferOk_putBits _ h.bitsOk (by omega))).setBitLen hzero).raise f
  · have hlen := hwritten hout
    have hpadded : (out ++ padding out.length).length ≤ 8 * (Config.bitCap / 8) := by
      rw [length_append_padding]
      omega
    have hbitLen := (toNat_ofNat_length hlen).trans_le hlen
    exact ((h.setBits (bufferOk_putBits _ h.bitsOk hpadded)).setBitLen hbitLen).succeed false

theorem Inv.bdec (l c : Bool) : Inv (bdec l c s) := by
  have hzero : (0#32).toNat ≤ Config.textCap := Nat.zero_le _
  have htree : Inv { s with
      node := (buildTree s.freq).1, nsym := BitVec.ofNat 9 (buildTree s.freq).2, treeValid := false } :=
    h.setTree Bool.noConfusion
  obtain ⟨r, -, heq⟩ | ⟨-, out, o, hdecode, hend⟩ := bdec_cases l c s
  · rw [heq]
    exact (h.dropTree.setTextLen hzero).raise r
  · obtain ⟨hout, -⟩ := decodeBits_keepsToText s.bitsOperand (buildTree s.freq).1 (buildTree s.freq).2 l
    rw [hdecode, Nat.zero_add] at hout
    have htext := htree.setText (bufferOk_putBytes h.textOk ((Nat.zero_add _).trans_le hout))
    have hlen := toNat_ofNat_length (hout.trans (by decide))
    obtain ⟨r, -, heq⟩ | ⟨-, heq⟩ := hend <;> rw [heq]
    · exact (htext.setTextLen hzero).raise r
    · exact (htext.setTextLen (hlen.trans_le hout)).succeed _

theorem Inv.clr : Inv (clr s) :=
  { resetStateMeetsTheInvariant with
    reserved := reserved_zero _, tree := Bool.noConfusion, codeMap := Bool.noConfusion
    arena := h.arena, textOk := h.textOk, bitsOk := h.bitsOk }

theorem Inv.afterCommand (i : Instr) : Inv (afterCommand i s) := by
  cases i with
  | fcnt => exact (h.setFreq _).succeed _
  | tbld c => exact h.tbld c
  | casn => exact h.casn
  | benc => exact h.benc
  | bdec l c => exact h.bdec l c
  | clr => exact h.clr

theorem Inv.afterWord (w : Word) : Inv (afterWord w s) := by
  obtain ⟨i, -, heq⟩ | ⟨_, -, heq⟩ := afterWord_cases w s <;> rw [heq]
  · exact h.afterCommand i
  · exact h.raise _

/-! ## Host events -/

/-- A store of a value within the element's limit (R63, R65). -/
theorem Inv.storeTarget {v : Word} {x : Target} (hlimit : withinLimit x v = true) : Inv (storeTarget s v x) := by
  cases x with
  | textLen => exact h.setTextLen (of_decide_eq_true hlimit)
  | bitLen => exact h.setBitLen (of_decide_eq_true hlimit)
  | symCount => exact { h with reserved := reserved_zero _ }
  | freq b => exact h.setFreq _
  | text i => exact h.setText (bufferOk_write h.textOk i.isLt _)
  | bitsb b => exact h.setBits (bufferOk_write h.bitsOk b.isLt _)
  | _ => exact h

theorem Inv.perform {e : HostEvent} {t : State} (ht : perform e s = .next t) : Inv t := by
  obtain ⟨_, _, _, -, -, hperf⟩ | ⟨_, _, _, -, -, hperf⟩ | ⟨_, _, w, -, -, hperf⟩ | ⟨_, _, v, x, -, hx, -, hperf⟩ |
    ⟨_, _, _, _, -, -, hperf⟩ | ⟨-, hperf⟩ := perform_cases e s <;> cases ht.symm.trans hperf
  · exact h.of_toBlock rfl
  · exact h.of_toBlock rfl
  · exact (h.afterWord w).of_toBlock rfl
  · obtain ⟨-, -, hlimit⟩ := writeTarget_eq_ok_iff.1 hx
    exact (h.storeTarget hlimit).of_toBlock rfl
  · exact h.of_toBlock rfl
  · exact resetStateMeetsTheInvariant.of_toBlock rfl

end

/-- Settles O59: a step without an event changes nothing, and each kind of host event keeps the invariant. -/
theorem everyStepKeepsTheInvariant : Obligations.EveryStepKeepsTheInvariant := by
  intro s t h ht
  obtain ⟨-, hstep⟩ | ⟨e, rest, -, hstep⟩ := step_cases s
  · cases ht.symm.trans hstep
    exact h
  · have hrest : Inv { s with pending := rest } := h.of_toBlock rfl
    exact hrest.perform (hstep.symm.trans ht)

end Sys2Proof.Machine

/-! SUPPORT. The failures of 60_exceptions.md: a command that failed finds the operands that made it fail unchanged (R246), and
the block between transactions (R253). -/

namespace Sys2Proof.Machine

/-! ## The idle block (R253) -/

/-- Settles O5: only the first pending event changes anything. -/
theorem idleBlockHoldsItsState : Obligations.IdleBlockHoldsItsState := by
  intro s hidle
  obtain ⟨-, hstep⟩ | ⟨e, rest, hpending, -⟩ := step_cases s
  · exact hstep
  · cases hidle.symm.trans hpending

/-! ## A failed command issued again (R246) -/

/-- Validation reads the table, the flag and SYM_COUNT, which `TBLD` does not write. -/
theorem tbld_fails_again {c : Bool} {s : State} (h : (tbld c s).err ≠ 0#8) :
    (tbld c (tbld c s)).err = (tbld c s).err ∧ (tbld c (tbld c s)).errInfo = (tbld c s).errInfo := by
  obtain ⟨r, hinvalid, heq⟩ | ⟨-, heq⟩ := tbld_cases c s
  · rw [heq, tbld_of_invalid (r := r)]
    exacts [⟨rfl, rfl⟩, hinvalid]
  · exact absurd (congrArg (·.err) heq) h

/-- `CASN` fails only without a valid tree, and it makes none. -/
theorem casn_fails_again {s : State} (h : (casn s).err ≠ 0#8) :
    (casn (casn s)).err = (casn s).err ∧ (casn (casn s)).errInfo = (casn s).errInfo := by
  obtain ⟨-, heq⟩ | ⟨hno, heq⟩ := casn_cases s
  · exact absurd (congrArg (·.err) heq) h
  · rw [heq, casn_of_no_tree]
    exacts [⟨rfl, rfl⟩, hno]

/-- The loop of `BENC` reads the text and the code map, which `BENC` does not write. -/
theorem benc_fails_again {s : State} (h : (benc s).err ≠ 0#8) :
    (benc (benc s)).err = (benc s).err ∧ (benc (benc s)).errInfo = (benc s).errInfo := by
  obtain ⟨-, heq⟩ | ⟨hempty, hno, heq⟩ | ⟨hempty, hvalid, out, f, hloop, heq⟩ | ⟨-, -, out, -, heq⟩ := benc_cases s
  · exact absurd (congrArg (·.err) heq) h
  · rw [heq, benc_of_no_code]
    exacts [⟨rfl, rfl⟩, beq_eq_false_iff_ne.1 hempty, hno]
  · rw [heq, benc_of_loop_failed (out := out) (f := f)]
    exacts [⟨rfl, rfl⟩, beq_eq_false_iff_ne.1 hempty, hvalid, hloop]
  · exact absurd (congrArg (·.err) heq) h

/-- Validation and the walk read the table, SYM_COUNT and the bit string, which `BDEC` does not write. -/
theorem bdec_fails_again {l c : Bool} {s : State} (h : (bdec l c s).err ≠ 0#8) :
    (bdec l c (bdec l c s)).err = (bdec l c s).err ∧ (bdec l c (bdec l c s)).errInfo = (bdec l c s).errInfo := by
  obtain ⟨r, hinvalid, heq⟩ | ⟨hvalid, out, o, hdecode, ⟨r, rfl, heq⟩ | ⟨-, heq⟩⟩ := bdec_cases l c s
  · rw [heq, bdec_of_invalid (r := r)]
    exacts [⟨rfl, rfl⟩, hinvalid]
  · obtain ⟨hlegal, htotal⟩ := validFreq_eq_none_iff.1 hvalid
    rw [heq, bdec_of_failed (out := out) (r := r)]
    exacts [⟨rfl, rfl⟩, hlegal, htotal, hdecode]
  · exact absurd (congrArg (·.err) heq) h

/-- Settles O44: command by command; FCNT and CLR have no failure (R120, R200). -/
theorem failedCommandFailsAgain : Obligations.FailedCommandFailsAgain := by
  intro i s t ht hfail
  obtain rfl := exec_eq_next ht
  refine ⟨_, exec_eq i _, ?_⟩
  cases i with
  | fcnt => exact absurd rfl hfail
  | tbld c => exact tbld_fails_again hfail
  | casn => exact casn_fails_again hfail
  | benc => exact benc_fails_again hfail
  | bdec l c => exact bdec_fails_again hfail
  | clr => exact absurd rfl hfail

end Sys2Proof.Machine

/-! SUPPORT. Reset, 70_reset_and_hazards.md: the state a reset leaves (R261), and the reset event between two transactions
(R260, R264). -/

namespace Sys2Proof.Machine

/-! ## What reads back where nothing was stored -/

/-- A byte that no write has reached since reset is a free value (R262). -/
@[simp] theorem Memory.byteAt_nil (free : Nat → Byte) (a : Nat) : Memory.byteAt free [] a = free a := rfl

/-- An arena without entries is unspecified everywhere (R261). -/
@[simp] theorem nodeAt_nil (n : Nat) : nodeAt [] n = Config.unspecifiedNode n := rfl

theorem readValue_codeLen_of_unset {s : State} {b : Byte} (h : tableGet s.code b = []) :
    readValue s (.codeLen b) = 0#32 := by
  rw [readValue, setWidth_codeLenField (by simp [h]), h, List.length_nil]

theorem readValue_codeBits_of_unset {s : State} {b : Byte} (h : tableGet s.code b = []) (w : BitVec 3) :
    readValue s (.codeBits b w) = 0#32 := by
  refine BitVec.eq_of_getLsbD_eq fun i hi => ?_
  have hbit := getLsbD_codeBitsWord s.code b w.toNat (t := 31 - i) (by omega)
  rw [Nat.sub_sub_self (by omega), h] at hbit
  simpa [readValue] using hbit

/-! ## The reset state (R261) -/

theorem tableGet_freq_reset (b : Byte) : tableGet State.reset.freq b = 0#32 := tableGet_replicate 0#32 b

theorem tableGet_code_reset (b : Byte) : tableGet State.reset.code b = [] := tableGet_replicate [] b

/-- With the block at reset, both buffers read as the free values of the current reset count (R262). -/
theorem buffers_of_reset {s : State} (h : s.toBlock = Block.reset) (i : Nat) :
    s.textAt i = Config.unwrittenText s.resets i ∧ s.bitsbAt i = Config.unwrittenBits s.resets i := by
  have htext : s.text = [] := congrArg Block.text h
  have hbits : s.bits = [] := congrArg Block.bits h
  rw [State.textAt, State.bitsbAt, htext, hbits]
  exact ⟨Memory.byteAt_nil _ i, Memory.byteAt_nil _ i⟩

/-- Settles O6: the registers hold 0, every code entry is unset, and nothing is listed in the buffers and the arena. -/
theorem resetStateElementByElement : Obligations.ResetStateElementByElement := by
  refine ⟨rfl, rfl, rfl, by decide, rfl, rfl, rfl, rfl, fun b => ?_, fun i => ?_⟩
  · have hunset := tableGet_code_reset b
    exact ⟨tableGet_freq_reset b, readValue_codeLen_of_unset hunset, readValue_codeBits_of_unset hunset⟩
  · obtain ⟨htext, hbits⟩ := buffers_of_reset (s := State.reset) rfl i
    exact ⟨htext, hbits, nodeAt_nil i⟩

/-! ## The reset event (R260, R264) -/

theorem step_reset {s : State} {rest : List HostEvent} (h : s.pending = .reset :: rest) :
    step s = .next (resetPulse { s with pending := rest }) := by
  rw [step_of_pending h, perform]

/-- Settles O7: the step is the reset pulse, which counts one more reset and lists nothing in the buffers. -/
theorem resetPulseGivesTheResetState : Obligations.ResetPulseGivesTheResetState := by
  intro s rest h
  exact ⟨_, step_reset h, rfl, rfl, fun i => buffers_of_reset (s := resetPulse { s with pending := rest }) rfl i⟩

end Sys2Proof.Machine
